-- ==== Sys2Proof/Word.lean ====
section
/-! DEFINITION. The word types of the RMD-X8-PRO CAN codec core: the byte and the 8-byte frame as one
64-bit number (spec/00_scope.md R10, spec/20_memory.md R55). -/

namespace Sys2Proof

/-- One frame byte, one address of a frame space (20_memory.md R50). -/
abbrev Byte := BitVec 8

/-- A whole frame read as one number: byte i is bits `8*i+7 : 8*i` (00_scope.md R10, 20_memory.md R55). -/
abbrev FrameWord := BitVec 64

end Sys2Proof
end

