-- ==== Sys2Proof/Config.lean ====
section
/-! DEFINITION. What is fixed when the block is instantiated: the constants of spec/00_scope.md R7 that are
no scale factor, and the static parameters of R8. The parameters are data (a `Params` record that no step
writes), so that a statement over every state is a statement over every setting of them. -/

namespace Sys2Proof.Config

/-- `FRAME_LEN` (00_scope.md R7, 30_encoding.md R80). -/
def frameLen : Nat := 8

/-- `BUS_ID`, the identifier of every frame sent (00_scope.md R7, 43_dispatcher.md R183). -/
def busId : BitVec 16 := 0x0141

/-- `RANGE_POLICY`: is a command whose converted value does not fit still sent? (43_dispatcher.md R186) -/
inductive RangePolicy where
  /-- `WRAP_SEND`: the wrapped frame is sent. -/
  | wrapSend
  /-- `REJECT`: nothing is sent. -/
  | reject
deriving DecidableEq, Repr

/-- `ANGLE_EXT`: how the 56 wire bits of the multi-turn angle become a signed value (44_decoder.md R203). -/
inductive AngleExt where
  /-- `SEXT56`: two's complement, bit 55 is the sign. -/
  | sext56
  /-- `ZEXT56`: a non-negative magnitude of 56 bits. -/
  | zext56
  /-- `SIGNMAG56`: bit 55 a sign flag over a magnitude of 55 bits. -/
  | signMag56
deriving DecidableEq, Repr

/-- `DIV_MODE`: the rounding of an integer division with a negative dividend (40_scaling.md R111). -/
inductive DivMode where
  /-- `TRUNC`: toward zero. -/
  | trunc
  /-- `FLOOR`: toward minus infinity. -/
  | floor
deriving DecidableEq, Repr

/-- The static parameters of 00_scope.md R8 (`LAT`, on which no rule depends, is not represented: R258). -/
structure Params where
  rangePolicy : RangePolicy
  angleExt : AngleExt
  divMode : DivMode
  /-- `TPW`, the width in bits of the transport-failure pass-through (60_exceptions.md R226). -/
  tpw : Nat
deriving DecidableEq, Repr

/-- The default of every parameter (00_scope.md R8). -/
def defaults : Params :=
  { rangePolicy := .wrapSend, angleExt := .sext56, divMode := .trunc, tpw := 1 }

/-- The one condition R8 sets on a parameter's value: `TPW` is an integer ≥ 1. -/
abbrev paramsLegal (p : Params) : Prop := 1 ≤ p.tpw

end Sys2Proof.Config
end

