-- ==== Sys2Proof/Syntax.lean ====
section
/-! DEFINITION. The eleven operations of the block (spec/00_scope.md R3), one constructor per row of
spec/opcode_table.json, with the operands of spec/30_encoding.md R87 and spec/44_decoder.md R199, R205 as the
integers step (1) of R84 reads from the ports. Operand types (`u16`, `i16`, `i32`, a 4-bit length) are checked
in WellFormed. -/

namespace Sys2Proof

/-- The direction of a turn, a 2-valued enumeration (30_encoding.md R88). -/
inductive Direction where
  | clockwise
  | counterclockwise
deriving DecidableEq, Repr

/-- The operations of the block: nine encode operations and two decode operations (00_scope.md R3). -/
inductive Instr where
  /-- `ENC EncoderOffset(offset=<u16>)`, 42_encoder.md R151. -/
  | encoderOffset (offset : Nat)
  /-- `ENC TorqueSetpoint(current=<i16>)`, R152. -/
  | torqueSetpoint (current : Int)
  /-- `ENC SpeedSetpoint(rpm=<i32>)`, R153. -/
  | speedSetpoint (rpm : Int)
  /-- `ENC PositionCtrl1(degrees=<i32>)`, R154. -/
  | positionCtrl1 (degrees : Int)
  /-- `ENC PositionCtrl2(speedLimitRpm=<u16>, degrees=<i32>)`, R155. -/
  | positionCtrl2 (speedLimitRpm : Nat) (degrees : Int)
  /-- `ENC PositionCtrl3(degrees=<u16>, dir=…)`, R156. -/
  | positionCtrl3 (degrees : Nat) (dir : Direction)
  /-- `ENC PositionCtrl4(degrees=<u16>, speedLimitRpm=<u16>, dir=…)`, R157. -/
  | positionCtrl4 (degrees : Nat) (speedLimitRpm : Nat) (dir : Direction)
  /-- `ENC QueryMotorStatus`, R158. -/
  | queryMotorStatus
  /-- `ENC QueryMultiTurnAngle`, R159. -/
  | queryMultiTurnAngle
  /-- `DEC MotorStatus [b0, …, b7] len=<0..15>`, 44_decoder.md R199. -/
  | motorStatus (len : Nat) (data : FrameWord)
  /-- `DEC MultiTurnAngle [b0, …, b7] len=<0..15>`, 44_decoder.md R205. -/
  | multiTurnAngle (len : Nat) (data : FrameWord)
deriving DecidableEq, Repr

end Sys2Proof
end

