-- ==== Sys2Proof/Machine/Operands.lean ====
section
/-! DEFINITION. Values and operands, without any state: how a bit vector becomes an integer and back
(spec/00_scope.md R11), the direction codes (spec/30_encoding.md R88), the extension of the 56-bit angle
(spec/44_decoder.md R203). Integers are Lean's unbounded `Int` and `Nat`; the only narrowing is `trunc`. -/

namespace Sys2Proof.Machine

/-- `uint(b)` (00_scope.md R11). -/
def uint {n : Nat} (b : BitVec n) : Nat := b.toNat

/-- `sint_N(b)`, the two's-complement value (00_scope.md R11; PRESUMED by the spec itself, G2: entry 13). -/
def sint {n : Nat} (b : BitVec n) : Int := b.toInt

/-- `trunc_N(v)`, the N-bit vector whose unsigned value is `v mod 2^N` (00_scope.md R11). -/
def trunc (n : Nat) (v : Int) : BitVec n := BitVec.ofInt n v

/-- `zext_N(b)` (00_scope.md R11). -/
def zext {k : Nat} (n : Nat) (b : BitVec k) : BitVec n := b.setWidth n

/-- The slice `b[hi:lo]` of `n = hi - lo + 1` bits (00_scope.md R10). -/
def slice {k : Nat} (b : BitVec k) (lo n : Nat) : BitVec n := b.extractLsb' lo n

/-- Byte lane i of a frame read as one number: bits `8*i+7 : 8*i` (00_scope.md R10, 20_memory.md R55). -/
def lane (f : FrameWord) (i : Nat) : Byte := slice f (8 * i) 8

/-- The `op_dir` code of a direction: clockwise 0, counter-clockwise 1 (30_encoding.md R88). -/
def dirBit : Direction → BitVec 1
  | .clockwise => 0
  | .counterclockwise => 1

/-- The direction an `op_dir` value names (30_encoding.md R88). -/
def dirOfBit (b : BitVec 1) : Direction :=
  if b = 0 then .clockwise else .counterclockwise

/-- The direction byte on the wire, `zext_8(op_dir)`: 0x00 or 0x01 (41_serializer.md R132). -/
def dirByte (d : Direction) : Byte := zext 8 (dirBit d)

/-- `extend(a, ANGLE_EXT)`: the 56-bit vector as the signed accumulator (44_decoder.md R203). -/
def extendAngle (ext : Config.AngleExt) (a : BitVec 56) : Int :=
  match ext with
  | .sext56 => sint a
  | .zext56 => uint a
  | .signMag56 =>
    let magnitude : Int := uint (slice a 0 55)
    if a.getLsbD 55 then -magnitude else magnitude

end Sys2Proof.Machine
end

