-- ==== Sys2Proof/Machine/Flags.lean ====
section
/-! DEFINITION. The range monitor: the one flag the block computes from a value (spec/43_dispatcher.md R184,
spec/00_scope.md R12). The other flags are set by the operations of Ops (raise, send, emit). -/

namespace Sys2Proof.Machine

/-- `fits_u(v, N)` (00_scope.md R12). -/
def fitsU (v : Int) (n : Nat) : Bool := decide (0 ≤ v) && decide (v ≤ 2 ^ n - 1)

/-- `fits_s(v, N)`, `N ≥ 1` (00_scope.md R12). -/
def fitsS (v : Int) (n : Nat) : Bool := decide (-(2 ^ (n - 1)) ≤ v) && decide (v ≤ 2 ^ (n - 1) - 1)

/-- A scaled field as the range monitor sees it: the converted value, the field's width and whether the operand
that feeds it is signed (43_dispatcher.md R184, 30_encoding.md R83). -/
structure ScaledField where
  value : Int
  width : Nat
  signed : Bool
deriving DecidableEq, Repr

/-- `fits(c, f)` (43_dispatcher.md R184). -/
def fieldFits (f : ScaledField) : Bool :=
  if f.signed then fitsS f.value f.width else fitsU f.value f.width

/-- `range_err`: some scaled field of the command does not fit (43_dispatcher.md R184). -/
def rangeErr (fields : List ScaledField) : Bool := fields.any fun f => !fieldFits f

end Sys2Proof.Machine
end

