-- ==== Sys2Proof/Machine/Scaling.lean ====
section
/-! DEFINITION. The scaling units of spec/40_scaling.md: pure functions from one integer to one integer, exact
(R110), the one rounding being `idiv` (R111). -/

namespace Sys2Proof.Machine

/-- `idiv(a, b)` for `b > 0`: rounded toward zero or toward minus infinity by `DIV_MODE`
(00_scope.md R12, 40_scaling.md R111). -/
def idiv (mode : Config.DivMode) (a b : Int) : Int :=
  match mode with
  | .trunc => Int.tdiv a b
  | .floor => Int.fdiv a b

/-- `SCL_RPM2CDPS` (R112): rpm to hundredths of a degree per second, in the document's three steps. -/
def rpmToCdps (mode : Config.DivMode) (rpm : Int) : Int :=
  let dps := idiv mode (rpm * 360) 60
  dps * 100

/-- `SCL_DEG2CDEG` (R113): degrees to hundredths of a degree. -/
def degToCdeg (deg : Int) : Int := deg * 100

/-- `SCL_IDENT` (R114): the raw fields. -/
def ident (v : Int) : Int := v

/-- `SCL_WIRE2RPM` (R115): wire speed to rpm, with no division by 100 (90_conflicts.md C3). -/
def wireToRpm (mode : Config.DivMode) (raw : Int) : Int := idiv mode (raw * 60) 360

/-- `SCL_CDEG2DEG` (R116): hundredths of a degree to whole degrees. -/
def cdegToDeg (mode : Config.DivMode) (cdeg : Int) : Int := idiv mode cdeg 100

end Sys2Proof.Machine
end

