-- ==== Sys2Proof/WellFormed.lean ====
section
/-! DEFINITION. Which terms of Instr are operations: every operand lies in the type the variant gives it
(spec/00_scope.md R11, spec/30_encoding.md R87), every received length in the four bits of `rx_len`
(spec/10_state.md R28). -/

namespace Sys2Proof

/-- A value of type `u16`. -/
def isU16 (n : Nat) : Bool := decide (n < 2 ^ 16)

/-- A value of type `i16`. -/
def isI16 (v : Int) : Bool := decide (-(2 ^ 15) ≤ v) && decide (v < 2 ^ 15)

/-- A value of type `i32`. -/
def isI32 (v : Int) : Bool := decide (-(2 ^ 31) ≤ v) && decide (v < 2 ^ 31)

/-- A value of the 4-bit port `rx_len`. -/
def isLen (n : Nat) : Bool := decide (n < 2 ^ 4)

/-- Every operand is in its type. -/
def Instr.wellFormed : Instr → Bool
  | .encoderOffset offset => isU16 offset
  | .torqueSetpoint current => isI16 current
  | .speedSetpoint rpm => isI32 rpm
  | .positionCtrl1 degrees => isI32 degrees
  | .positionCtrl2 speedLimitRpm degrees => isU16 speedLimitRpm && isI32 degrees
  | .positionCtrl3 degrees _ => isU16 degrees
  | .positionCtrl4 degrees speedLimitRpm _ => isU16 degrees && isU16 speedLimitRpm
  | .queryMotorStatus => true
  | .queryMultiTurnAngle => true
  | .motorStatus len _ => isLen len
  | .multiTurnAngle len _ => isLen len

end Sys2Proof
end

