-- ==== Sys2Proof/Decode.lean ====
section
/-! DEFINITION. The two encodings of the block (spec/30_encoding.md): the descriptor on the ports, which is what a
step decodes (R86, R87, R97; spec/92_eei_decisions.md D27), and the 64-bit frame, whose bits are the ones
spec/opcode_table.json numbers (R81, R82, R96). For each, a decoder, total and rejecting by name, and after it the
encoder. -/

namespace Sys2Proof

open Sys2Proof.Machine

/-- The encoder-side input ports of one encode transaction (10_state.md R26). -/
structure CommandDescriptor where
  kind : BitVec 4
  opA : BitVec 32
  opB : BitVec 16
  opDir : BitVec 1
deriving DecidableEq, Repr

/-- The decoder-side input ports of one decode transaction (10_state.md R28). -/
structure ReceivedFrame where
  shape : BitVec 1
  len : BitVec 4
  data : FrameWord
deriving DecidableEq, Repr

/-- What the host presents on one path at one sampling instant (00_scope.md R15). -/
inductive Transaction where
  | command (d : CommandDescriptor)
  | received (r : ReceivedFrame)
deriving DecidableEq, Repr

/-- Why no instruction is read. -/
inductive DecodeError where
  /-- `cmd_kind` 9 to 15 names no command (30_encoding.md R91). The step raises `IllegalKind` on it. -/
  | illegalKind (kind : BitVec 4)
  /-- No row of the table on this path has this byte 0 (30_encoding.md R89). Only frame words meet it. -/
  | unknownOpcode (opcode : Byte)
  /-- Byte 0 is a command's, but a reserved bit is 1 (30_encoding.md R90, R96). Only frame words meet it. -/
  | reservedNotZero (frame : FrameWord)
  /-- No operand in range converts to this field (entry 8). Only frame words meet it. -/
  | notConverted (field : Int)
deriving DecidableEq, Repr

/-! ### The descriptor on the ports -/

/-- The command a descriptor names, its operands read from the ports of R87 (30_encoding.md R84 step 1, R86, R87).
Ports and bits the kind does not use are not read (10_state.md R33). -/
def decodeCommand (d : CommandDescriptor) : Except DecodeError Instr :=
  match uint d.kind with
  | 0 => .ok (.encoderOffset (uint (slice d.opA 0 16)))
  | 1 => .ok (.torqueSetpoint (sint (slice d.opA 0 16)))
  | 2 => .ok (.speedSetpoint (sint d.opA))
  | 3 => .ok (.positionCtrl1 (sint d.opA))
  | 4 => .ok (.positionCtrl2 (uint d.opB) (sint d.opA))
  | 5 => .ok (.positionCtrl3 (uint (slice d.opA 0 16)) (dirOfBit d.opDir))
  | 6 => .ok (.positionCtrl4 (uint (slice d.opA 0 16)) (uint d.opB) (dirOfBit d.opDir))
  | 7 => .ok .queryMotorStatus
  | 8 => .ok .queryMultiTurnAngle
  | _ => .error (.illegalKind d.kind)

/-- The decode operation a presented frame asks for: the shape is the host's, both values are legal, and no byte of
the frame is looked at (30_encoding.md R97, 44_decoder.md R195). -/
def decodeReceived (r : ReceivedFrame) : Instr :=
  if r.shape = 0 then .motorStatus (uint r.len) r.data else .multiTurnAngle (uint r.len) r.data

/-- The instruction of a transaction (92_eei_decisions.md D27). -/
def decode : Transaction → Except DecodeError Instr
  | .command d => decodeCommand d
  | .received r => .ok (decodeReceived r)

/-- The descriptor of a command with the given kind tag, unused ports 0 (30_encoding.md R86, R87). -/
def descriptor (kind : BitVec 4) (a : Int := 0) (b : Nat := 0) (dir : Direction := .clockwise) : Transaction :=
  .command { kind := kind, opA := trunc 32 a, opB := trunc 16 b, opDir := dirBit dir }

/-- The ports that present an instruction (30_encoding.md R86, R87, R97). -/
def encode : Instr → Transaction
  | .encoderOffset offset => descriptor 0 (a := offset)
  | .torqueSetpoint current => descriptor 1 (a := current)
  | .speedSetpoint rpm => descriptor 2 (a := rpm)
  | .positionCtrl1 degrees => descriptor 3 (a := degrees)
  | .positionCtrl2 speedLimitRpm degrees => descriptor 4 (a := degrees) (b := speedLimitRpm)
  | .positionCtrl3 degrees dir => descriptor 5 (a := degrees) (dir := dir)
  | .positionCtrl4 degrees speedLimitRpm dir =>
    descriptor 6 (a := degrees) (b := speedLimitRpm) (dir := dir)
  | .queryMotorStatus => descriptor 7
  | .queryMultiTurnAngle => descriptor 8
  | .motorStatus len data => .received { shape := 0, len := trunc 4 len, data := data }
  | .multiTurnAngle len data => .received { shape := 1, len := trunc 4 len, data := data }

/-! ### The frame on the wire -/

/-- The two directions of a frame, `direction` of the table (30_encoding.md R96). -/
inductive Path where
  | tx
  | rx
deriving DecidableEq, Repr

/-- The eleven rows of the table by name (30_encoding.md R96). -/
inductive Operation where
  | encoderOffset | torqueSetpoint | speedSetpoint | positionCtrl1 | positionCtrl2 | positionCtrl3 | positionCtrl4
  | queryMotorStatus | queryMultiTurnAngle | motorStatus | multiTurnAngle
deriving DecidableEq, Repr

/-- The row an instruction belongs to. -/
def Instr.operation : Instr → Operation
  | .encoderOffset _ => .encoderOffset
  | .torqueSetpoint _ => .torqueSetpoint
  | .speedSetpoint _ => .speedSetpoint
  | .positionCtrl1 _ => .positionCtrl1
  | .positionCtrl2 _ _ => .positionCtrl2
  | .positionCtrl3 _ _ => .positionCtrl3
  | .positionCtrl4 _ _ _ => .positionCtrl4
  | .queryMotorStatus => .queryMotorStatus
  | .queryMultiTurnAngle => .queryMultiTurnAngle
  | .motorStatus _ _ => .motorStatus
  | .multiTurnAngle _ _ => .multiTurnAngle

/-- A row's direction and its match and mask over the frame number (30_encoding.md R96). -/
structure TableRow where
  path : Path
  pattern : FrameWord
  mask : FrameWord
deriving DecidableEq, Repr

/-- spec/opcode_table.json, row by row. -/
def tableRow : Operation → TableRow
  | .encoderOffset => ⟨.tx, 0x0000000000000091, 0x0000FFFFFFFFFFFF⟩
  | .torqueSetpoint => ⟨.tx, 0x00000000000000A1, 0xFFFF0000FFFFFFFF⟩
  | .speedSetpoint => ⟨.tx, 0x00000000000000A2, 0x00000000FFFFFFFF⟩
  | .positionCtrl1 => ⟨.tx, 0x00000000000000A3, 0x00000000FFFFFFFF⟩
  | .positionCtrl2 => ⟨.tx, 0x00000000000000A4, 0x000000000000FFFF⟩
  | .positionCtrl3 => ⟨.tx, 0x00000000000000A5, 0xFFFF0000FFFFFEFF⟩
  | .positionCtrl4 => ⟨.tx, 0x00000000000000A6, 0xFFFF00000000FEFF⟩
  | .queryMotorStatus => ⟨.tx, 0x000000000000009C, 0xFFFFFFFFFFFFFFFF⟩
  | .queryMultiTurnAngle => ⟨.tx, 0x0000000000000092, 0xFFFFFFFFFFFFFFFF⟩
  | .motorStatus => ⟨.rx, 0x000000000000009C, 0x00000000000000FF⟩
  | .multiTurnAngle => ⟨.rx, 0x0000000000000092, 0x00000000000000FF⟩

/-- The rows in the table's order. -/
def operations : List Operation :=
  [.encoderOffset, .torqueSetpoint, .speedSetpoint, .positionCtrl1, .positionCtrl2, .positionCtrl3, .positionCtrl4,
    .queryMotorStatus, .queryMultiTurnAngle, .motorStatus, .multiTurnAngle]

/-- A frame is an instance of a row on a path (30_encoding.md R96). -/
def isInstance (p : Path) (f : FrameWord) (o : Operation) : Bool :=
  decide ((tableRow o).path = p) && decide (f &&& (tableRow o).mask = (tableRow o).pattern)

/-- Hundredths of a degree per second in one rpm: `SCL_RPM2CDPS` is `600 * rpm` (40_scaling.md R112). -/
def cdpsPerRpm : Int := 600

/-- Hundredths of a degree in one degree (40_scaling.md R113). -/
def cdegPerDeg : Int := 100

/-- The operand whose converted value is this field, if there is one (entry 8). -/
def unscale (factor field : Int) : Except DecodeError Int :=
  if field % factor = 0 then .ok (field / factor) else .error (.notConverted field)

/-- The fields of a row's format (30_encoding.md R81, R82, R83) back as operands. -/
def readFields (f : FrameWord) : Operation → Except DecodeError Instr
  | .encoderOffset => .ok (.encoderOffset (uint (slice f 48 16)))
  | .torqueSetpoint => .ok (.torqueSetpoint (sint (slice f 32 16)))
  | .speedSetpoint => (unscale cdpsPerRpm (sint (slice f 32 32))).map .speedSetpoint
  | .positionCtrl1 => (unscale cdegPerDeg (sint (slice f 32 32))).map .positionCtrl1
  | .positionCtrl2 =>
    (unscale cdpsPerRpm (uint (slice f 16 16))).bind fun limit =>
      (unscale cdegPerDeg (sint (slice f 32 32))).map fun degrees => .positionCtrl2 limit.toNat degrees
  | .positionCtrl3 =>
    (unscale cdegPerDeg (uint (slice f 32 16))).map fun degrees =>
      .positionCtrl3 degrees.toNat (dirOfBit (slice f 8 1))
  | .positionCtrl4 =>
    (unscale cdpsPerRpm (uint (slice f 16 16))).bind fun limit =>
      (unscale cdegPerDeg (uint (slice f 32 16))).map fun degrees =>
        .positionCtrl4 degrees.toNat limit.toNat (dirOfBit (slice f 8 1))
  | .queryMotorStatus => .ok .queryMotorStatus
  | .queryMultiTurnAngle => .ok .queryMultiTurnAngle
  | .motorStatus => .ok (.motorStatus 8 f)
  | .multiTurnAngle => .ok (.multiTurnAngle 8 f)

/-- Why a frame is an instance of no row: its byte 0, or a reserved bit. -/
def frameError (p : Path) (f : FrameWord) : DecodeError :=
  if operations.any fun o => decide ((tableRow o).path = p) && decide (lane (tableRow o).pattern 0 = lane f 0) then
    .reservedNotZero f
  else .unknownOpcode (lane f 0)

/-- The instruction a frame is an instance of, on a path (30_encoding.md R89, R96). No unit of the block does this
to a command frame: it is the reading of the table that `decodeTableWord` asks for. -/
def decodeFrame (p : Path) (f : FrameWord) : Except DecodeError Instr :=
  match operations.find? (isInstance p f) with
  | some o => readFields f o
  | none => .error (frameError p f)

/-- An n-bit field of a frame at bit `lo` holding the truncation of an integer (30_encoding.md R83, R84). -/
def place (n lo : Nat) (v : Int) : FrameWord := zext 64 (trunc n v) <<< lo

/-- The frame of an instruction, written from the formats of 30_encoding.md R81 and R82 as one number; for a decode
operation it is the received frame. The meanings do not use it: they write `TX` byte by byte. -/
def encodeFrame : Instr → FrameWord
  | .encoderOffset offset => 0x91 ||| place 16 48 offset
  | .torqueSetpoint current => 0xA1 ||| place 16 32 current
  | .speedSetpoint rpm => 0xA2 ||| place 32 32 (cdpsPerRpm * rpm)
  | .positionCtrl1 degrees => 0xA3 ||| place 32 32 (cdegPerDeg * degrees)
  | .positionCtrl2 speedLimitRpm degrees =>
    0xA4 ||| place 16 16 (cdpsPerRpm * speedLimitRpm) ||| place 32 32 (cdegPerDeg * degrees)
  | .positionCtrl3 degrees dir =>
    0xA5 ||| (zext 64 (dirBit dir)) <<< 8 ||| place 16 32 (cdegPerDeg * degrees)
  | .positionCtrl4 degrees speedLimitRpm dir =>
    0xA6 ||| (zext 64 (dirBit dir)) <<< 8 ||| place 16 16 (cdpsPerRpm * speedLimitRpm)
      ||| place 16 32 (cdegPerDeg * degrees)
  | .queryMotorStatus => 0x9C
  | .queryMultiTurnAngle => 0x92
  | .motorStatus _ data => data
  | .multiTurnAngle _ data => data

/-- The path of a table word. Rows 0x9C and 0x92 stand in the table once in each direction, "told apart by
direction, not by bits" (30_encoding.md R96), and a word carries no direction: with a non-zero payload it can only be
a response (the query rows fix all 64 bits), with fewer than 64 bits given the row fixes byte 0 only, which is a
response row, and the whole 64-bit word with a zero payload is taken as the query (DESIGN CHOICE, entry 7). -/
def tablePath (nbits : Nat) (f : FrameWord) : Path :=
  if lane f 0 = 0x9C ∨ lane f 0 = 0x92 then
    if nbits < 64 ∨ slice f 8 56 ≠ 0 then .rx else .tx
  else .tx

/-- The instruction of a word numbered as spec/opcode_table.json numbers it: bit 0 is bit 0 of byte 0, and every bit
above `nbits` is 0. -/
def decodeTableWord (nbits w : Nat) : Option Instr :=
  let f : FrameWord := BitVec.ofNat 64 (w % 2 ^ nbits)
  match decodeFrame (tablePath nbits f) f with
  | .ok i => some i
  | .error _ => none

end Sys2Proof
end

