-- ==== Sys2Proof/Machine/State.lean ====
section
/-! DEFINITION. The state as plain data. The block keeps none (spec/10_state.md R20 to R24): State is what stands on
its ports and in its two frame spaces AT ONE SAMPLING INSTANT (R26 to R31, spec/20_memory.md R50), the static
parameters (spec/00_scope.md R8), and the list of what host and transport drive at the coming instants
(spec/30_encoding.md R94; the model's own field, entry 1). -/

namespace Sys2Proof.Machine

/-- The input ports at one sampling instant (10_state.md R26, R28, R31). -/
structure Inputs where
  cmdValid : Bool
  cmdKind : BitVec 4
  opA : BitVec 32
  opB : BitVec 16
  opDir : BitVec 1
  rxValid : Bool
  rxShape : BitVec 1
  rxLen : BitVec 4
  rxData : BitVec 64
  /-- `tp_err`: the port is the low `TPW` bits (entry 4). -/
  tpErr : Nat
deriving DecidableEq, Repr

/-- No transaction on either path, no transport failure (70_reset_and_hazards.md R252 duty 1). The ports that are not
read then are 0 (DESIGN CHOICE, entry 5: nothing depends on them, 10_state.md R33). -/
def Inputs.idle : Inputs :=
  { cmdValid := false, cmdKind := 0, opA := 0, opB := 0, opDir := 0,
    rxValid := false, rxShape := 0, rxLen := 0, rxData := 0, tpErr := 0 }

/-- The encoder-side outputs (10_state.md R27). -/
structure EncoderOutputs where
  txValid : Bool
  txId : BitVec 16
  txData : BitVec 64
  errKind : Bool
  errRange : Bool
deriving DecidableEq, Repr

/-- The encoder-side outputs with `cmd_valid = 0` (10_state.md R32). -/
def EncoderOutputs.idle : EncoderOutputs :=
  { txValid := false, txId := Config.busId, txData := 0, errKind := false, errRange := false }

/-- The decoder-side outputs (10_state.md R29, R30). -/
structure DecoderOutputs where
  stValid : Bool
  stTemp : BitVec 8
  stTorque : BitVec 16
  stSpeed : BitVec 16
  stEnc : BitVec 16
  angValid : Bool
  angDeg : BitVec 64
  rxOpcode : BitVec 8
  errMalformed : Bool
deriving DecidableEq, Repr

/-- The decoder-side outputs with `rx_valid = 0` (10_state.md R32). -/
def DecoderOutputs.idle : DecoderOutputs :=
  { stValid := false, stTemp := 0, stTorque := 0, stSpeed := 0, stEnc := 0,
    angValid := false, angDeg := 0, rxOpcode := 0, errMalformed := false }

/-- A frame space (20_memory.md R50): the bytes that are not 0, addresses strictly rising. An unlisted address reads
as 0, which is what every byte of `TX` is at the start of an encode transaction (R52). -/
abbrev Memory := List Host.Cell

/-- One sampling instant. -/
structure State where
  /-- The static parameters (00_scope.md R8); no step changes them. -/
  params : Config.Params
  /-- The input ports at this instant. -/
  inp : Inputs
  /-- The space `TX` of this instant's encode transaction (20_memory.md R50, R52). -/
  tx : Memory
  /-- The space `RX` of this instant's decode transaction (20_memory.md R50, R53). -/
  rx : Memory
  /-- The encoder-side outputs at this instant. -/
  enc : EncoderOutputs
  /-- The decoder-side outputs at this instant. -/
  dec : DecoderOutputs
  /-- `err_transport` at this instant (10_state.md R31). -/
  errTransport : Nat
  /-- What host and transport drive at the coming instants, the next first (30_encoding.md R94; entry 1). -/
  upcoming : List Inputs
deriving DecidableEq, Repr

/-- Why the machine stops. -/
inductive Fault where
  /-- An access of `n` bytes at `addr` outside the 8 bytes of a frame. Raised by `memRead` and `memWrite` only. The
  spec says such an access cannot happen (20_memory.md R58), and no step reaches it. SAFE. -/
  | outsideFrame (addr n : Nat)
deriving DecidableEq, Repr

/-- Why an instruction is refused. -/
inductive Refusal where
  /-- An instruction without a meaning, raised by exec's arm alone. No arm of this model raises it. SAFE. -/
  | notModelled (mnemonic : String)
deriving DecidableEq, Repr

/-- The machine right after reset of the surrounding system: no state to reset (10_state.md R35), the host holds both
valid inputs at 0 (70_reset_and_hazards.md R252 duty 1), the outputs are those of R251, the parameters have the
defaults of 00_scope.md R8, and nothing has been presented yet (entries 5, 6). -/
def State.reset : State :=
  { params := Config.defaults, inp := Inputs.idle, tx := [], rx := [],
    enc := EncoderOutputs.idle, dec := DecoderOutputs.idle, errTransport := 0, upcoming := [] }

end Sys2Proof.Machine
end

