-- ==== Sys2Proof/Machine/Ops.lean ====
section
/-! DEFINITION. The named operations: the frame spaces and their two access primitives (spec/00_scope.md R13), the
start of a sampling instant (R15), the error conditions and `raise` (R14, spec/60_exceptions.md R221 to R226), `send`
with `RANGE_POLICY` (spec/43_dispatcher.md R183, R186) and `emit` (spec/44_decoder.md R199, R205). There is no
trap entry and no trap return (60_exceptions.md R230, R231): `State.raise` is all an error condition does. -/

namespace Sys2Proof.Machine

/-! ### Frame spaces -/

/-- One byte of a frame space; an unlisted address reads as 0 (20_memory.md R52). -/
def byteAt (m : Memory) (a : Nat) : Byte :=
  match m with
  | [] => 0
  | (b, v) :: rest => if b = a then v else byteAt rest a

/-- Write one byte, keeping the canonical form. -/
def setByte (m : Memory) (a : Nat) (v : Byte) : Memory :=
  match m with
  | [] => if v = 0 then [] else [(a, v)]
  | (b, w) :: rest =>
    if a < b then (if v = 0 then (b, w) :: rest else (a, v) :: (b, w) :: rest)
    else if a = b then (if v = 0 then rest else (a, v) :: rest)
    else (b, w) :: setByte rest a v

/-- Addresses strictly rise from `lo` on and stay below 8, and no entry is 0. -/
def Memory.wfFrom (lo : Nat) (m : Memory) : Bool :=
  match m with
  | [] => true
  | (a, v) :: rest => decide (lo ≤ a) && decide (a < Config.frameLen) && decide (v ≠ 0) && Memory.wfFrom (a + 1) rest

/-- The canonical form of a frame space. -/
def Memory.wf (m : Memory) : Bool := Memory.wfFrom 0 m

/-- Write the low `n` bytes of `v` at `a`, the low byte at the lowest address (00_scope.md R13, 20_memory.md R54). -/
def setBytes (m : Memory) (a : Nat) (v : Nat) : Nat → Memory
  | 0 => m
  | n + 1 => setBytes (setByte m a (BitVec.ofNat 8 v)) (a + 1) (v / 256) n

/-- `MemWrite(addr, n, v)` (00_scope.md R13). -/
def memWrite (m : Memory) (addr n v : Nat) : Except Fault Memory :=
  if addr + n ≤ Config.frameLen then .ok (setBytes m addr v n) else .error (.outsideFrame addr n)

/-- The bytes `a`, …, `a + n - 1` as one number, the byte at the lowest address the least significant. -/
def getBytes (m : Memory) (a : Nat) : Nat → Nat
  | 0 => 0
  | n + 1 => uint (byteAt m a) + 256 * getBytes m (a + 1) n

/-- `MemRead(addr, n)` (00_scope.md R13). -/
def memRead (m : Memory) (addr n : Nat) : Except Fault Nat :=
  if addr + n ≤ Config.frameLen then .ok (getBytes m addr n) else .error (.outsideFrame addr n)

/-- A frame space as the 64-bit port value, byte i in bits `8*i+7 : 8*i` (20_memory.md R55). -/
def portOfFrame (m : Memory) : FrameWord := BitVec.ofNat 64 (getBytes m 0 Config.frameLen)

/-- The frame space that a 64-bit port value fills (20_memory.md R55). -/
def frameOfPort (f : FrameWord) : Memory := setBytes [] 0 (uint f) Config.frameLen

/-! ### Error conditions -/

/-- The four error conditions with the information each records (60_exceptions.md R220, R221). -/
inductive Condition where
  /-- `MalformedFrame`, with the offending `rx_len`, which the block does not latch. -/
  | malformedFrame (len : Nat)
  /-- `OutOfRange`. -/
  | outOfRange
  /-- `TransportFailure`, with the opaque value. -/
  | transportFailure (value : Nat)
  /-- `IllegalKind`. -/
  | illegalKind
deriving DecidableEq, Repr

/-- The cause code of a condition, which appears on no port (60_exceptions.md R221). -/
def Condition.code : Condition → Nat
  | .malformedFrame _ => 1
  | .outOfRange => 2
  | .transportFailure _ => 3
  | .illegalKind => 4

/-- `raise <Condition>(info)`: drive the condition's flag and the outputs its rule lists, nothing else
(00_scope.md R14, 60_exceptions.md R230). The frame that may accompany `OutOfRange` is `State.dispatch`'s. -/
def State.raise (s : State) : Condition → State
  | .malformedFrame _ => { s with dec := { DecoderOutputs.idle with errMalformed := true } }
  | .outOfRange => { s with enc := { s.enc with errKind := false, errRange := true } }
  | .transportFailure value => { s with errTransport := value }
  | .illegalKind => { s with enc := { EncoderOutputs.idle with errKind := true } }

/-! ### A sampling instant -/

/-- The value `tp_err` carries: its low `TPW` bits (60_exceptions.md R226; entry 4). -/
def transportValue (p : Config.Params) (i : Inputs) : Nat := i.tpErr % 2 ^ p.tpw

/-- The next sampling instant before its operations: the host's next port values, or no transaction when its listing
is at an end (entry 2), fresh frame spaces (20_memory.md R52), idle outputs (10_state.md R32) and the transport
failure passed through (60_exceptions.md R225, R226). Nothing of the instant before is kept (10_state.md R21). -/
def State.sample (s : State) : State :=
  let i := s.upcoming.headD Inputs.idle
  State.raise
    { s with inp := i, upcoming := s.upcoming.tail, tx := [], rx := [],
             enc := EncoderOutputs.idle, dec := DecoderOutputs.idle }
    (.transportFailure (transportValue s.params i))

/-- The command descriptor on the ports (10_state.md R26). -/
def Inputs.descriptor (i : Inputs) : CommandDescriptor :=
  { kind := i.cmdKind, opA := i.opA, opB := i.opB, opDir := i.opDir }

/-- The presented frame on the ports (10_state.md R28). -/
def Inputs.received (i : Inputs) : ReceivedFrame :=
  { shape := i.rxShape, len := i.rxLen, data := i.rxData }

/-- Port values that present one transaction and nothing else. -/
def Transaction.toInputs : Transaction → Inputs
  | .command d => { Inputs.idle with cmdValid := true, cmdKind := d.kind, opA := d.opA, opB := d.opB, opDir := d.opDir }
  | .received r => { Inputs.idle with rxValid := true, rxShape := r.shape, rxLen := r.len, rxData := r.data }

/-- The state with these port values due at the next sampling instant. -/
def State.present (s : State) (i : Inputs) : State := { s with upcoming := i :: s.upcoming }

/-- The port values that present the instruction of a table word (entry 6); no transaction where it is none. -/
def tableWordInputs (nbits w : Nat) : Inputs :=
  match decodeTableWord nbits w with
  | some i => Transaction.toInputs (encode i)
  | none => Inputs.idle

/-! ### Outcomes -/

/-- An outcome of the model's machine. -/
abbrev Result := Host.Outcome State Fault Refusal

/-- Go on from a next state; a stop stays a stop. -/
def andThen (r : Result) (f : State → Result) : Result :=
  match r with
  | .next s => f s
  | .fault e => .fault e
  | .refused e => .refused e

/-! ### Send and emit -/

/-- `send(0x0141, frame)`: the frame on `tx_data` with `tx_valid = 1`, no error flag (43_dispatcher.md R183). -/
def State.send (s : State) (frame : Memory) : State :=
  { s with enc := { txValid := true, txId := Config.busId, txData := portOfFrame frame,
                    errKind := false, errRange := false } }

/-- The dispatcher's hand-over of a finished frame with the range monitor's verdict: sent; or, where a value did not
fit, flagged and sent or withheld by `RANGE_POLICY` (43_dispatcher.md R183, R186; 60_exceptions.md R223). -/
def State.dispatch (s : State) (frame : Memory) (outOfRange : Bool) : State :=
  let built := { s with tx := frame }
  if outOfRange then
    match s.params.rangePolicy with
    | .wrapSend => (built.send frame).raise .outOfRange
    | .reject => State.raise { built with enc := EncoderOutputs.idle } .outOfRange
  else built.send frame

/-- The transport's filling of `RX` with the received bytes (20_memory.md R50, R53). -/
def State.receive (s : State) (data : FrameWord) : State := { s with rx := frameOfPort data }

/-- `emit <record>`: drive a decoded record on the telemetry outputs (00_scope.md R14). -/
def State.emit (s : State) (record : DecoderOutputs) : State := { s with dec := record }

/-- The next state that an access to a frame space gives, or the fault it stops with. -/
def ofAccess {α : Type} (access : Except Fault α) (f : α → State) : Result :=
  match access with
  | .ok a => .next (f a)
  | .error e => .fault e

end Sys2Proof.Machine
end

