-- ==== Sys2Proof/Machine/Serializer.lean ====
section
/-! DEFINITION. The little-endian serializer and deserializer of spec/41_serializer.md: the one addressing mode is an
absolute constant (R139), truncation wraps and never refuses (R137). -/

namespace Sys2Proof.Machine

/-- `SER8(addr, b)` (R132). -/
def ser8 (addr : Nat) (b : Byte) (m : Memory) : Except Fault Memory := memWrite m addr 1 (uint b)

/-- `SER16(addr, c)` (R130). -/
def ser16 (addr : Nat) (c : Int) (m : Memory) : Except Fault Memory := memWrite m addr 2 (uint (trunc 16 c))

/-- `SER32(addr, c)` (R131). -/
def ser32 (addr : Nat) (c : Int) (m : Memory) : Except Fault Memory := memWrite m addr 4 (uint (trunc 32 c))

/-- `DES8S(addr)` (R133). -/
def des8s (addr : Nat) (m : Memory) : Except Fault Int :=
  (memRead m addr 1).map fun v => sint (BitVec.ofNat 8 v)

/-- `DES16S(addr)` (R134). -/
def des16s (addr : Nat) (m : Memory) : Except Fault Int :=
  (memRead m addr 2).map fun v => sint (BitVec.ofNat 16 v)

/-- `DES16U(addr)` (R135). -/
def des16u (addr : Nat) (m : Memory) : Except Fault Int :=
  (memRead m addr 2).map fun v => (uint (BitVec.ofNat 16 v) : Int)

/-- `DES56(addr)` (R136): seven bytes, each at exactly one position. -/
def des56 (addr : Nat) (m : Memory) : Except Fault (BitVec 56) :=
  (memRead m addr 7).map fun v => BitVec.ofNat 56 v

end Sys2Proof.Machine
end

