-- ==== Sys2Proof/Machine/Encoder.lean ====
section
/-! DEFINITION. The nine encode operations of spec/42_encoder.md with the range monitor and the send of
spec/43_dispatcher.md: each builds its frame in a fresh `TX` from its opcode and fields, and hands it to the
dispatcher with the verdict on its scaled fields. -/

namespace Sys2Proof.Machine

/-- The common shape of an encode operation (42_encoder.md R150): fresh all-zero `TX`, opcode at byte 0, the fields,
then the hand-over with the range monitor's verdict (43_dispatcher.md R180, R184, R186). -/
def encodeOp (opcode : Byte) (fields : Memory → Except Fault Memory) (scaled : List ScaledField) (s : State) : Result :=
  ofAccess ((ser8 0 opcode []).bind fields) fun frame => s.dispatch frame (rangeErr scaled)

/-- `EncoderOffset(offset)`, format `O` (R151). -/
def execEncoderOffset (offset : Nat) (s : State) : Result :=
  encodeOp 0x91 (ser16 6 (ident offset)) [] s

/-- `TorqueSetpoint(current)`, format `T` (R152). -/
def execTorqueSetpoint (current : Int) (s : State) : Result :=
  encodeOp 0xA1 (ser16 4 (ident current)) [] s

/-- `SpeedSetpoint(rpm)`, format `W` (R153). -/
def execSpeedSetpoint (rpm : Int) (s : State) : Result :=
  let c := rpmToCdps s.params.divMode rpm
  encodeOp 0xA2 (ser32 4 c) [⟨c, 32, true⟩] s

/-- `PositionCtrl1(degrees)`, format `W` (R154). -/
def execPositionCtrl1 (degrees : Int) (s : State) : Result :=
  let c := degToCdeg degrees
  encodeOp 0xA3 (ser32 4 c) [⟨c, 32, true⟩] s

/-- `PositionCtrl2(speedLimitRpm, degrees)`, format `SW` (R155). -/
def execPositionCtrl2 (speedLimitRpm : Nat) (degrees : Int) (s : State) : Result :=
  let v := rpmToCdps s.params.divMode speedLimitRpm
  let c := degToCdeg degrees
  encodeOp 0xA4 (fun m => (ser16 2 v m).bind (ser32 4 c)) [⟨v, 16, false⟩, ⟨c, 32, true⟩] s

/-- `PositionCtrl3(degrees, dir)`, format `DH` (R156): the direction is a byte, never a sign (R161). -/
def execPositionCtrl3 (degrees : Nat) (dir : Direction) (s : State) : Result :=
  let c := degToCdeg degrees
  encodeOp 0xA5 (fun m => (ser8 1 (dirByte dir) m).bind (ser16 4 c)) [⟨c, 16, false⟩] s

/-- `PositionCtrl4(degrees, speedLimitRpm, dir)`, format `DSH` (R157). -/
def execPositionCtrl4 (degrees speedLimitRpm : Nat) (dir : Direction) (s : State) : Result :=
  let v := rpmToCdps s.params.divMode speedLimitRpm
  let c := degToCdeg degrees
  encodeOp 0xA6 (fun m => ((ser8 1 (dirByte dir) m).bind (ser16 2 v)).bind (ser16 4 c))
    [⟨v, 16, false⟩, ⟨c, 16, false⟩] s

/-- `QueryMotorStatus`, format `Q` (R158). -/
def execQueryMotorStatus (s : State) : Result := encodeOp 0x9C .ok [] s

/-- `QueryMultiTurnAngle`, format `Q` (R159). -/
def execQueryMultiTurnAngle (s : State) : Result := encodeOp 0x92 .ok [] s

end Sys2Proof.Machine
end

