-- ==== Sys2Proof/Machine/StatusDecoder.lean ====
section
/-! DEFINITION. The two decode operations of spec/44_decoder.md: the length check first (R196), then the fields of
the stated shape (R195), byte 0 passed through and examined by nothing (R197). -/

namespace Sys2Proof.Machine

/-- The common shape of a decode operation: a length other than 8 raises `MalformedFrame` before any byte of the
frame is used (R196); otherwise `RX` holds the frame and the shape's record is read from it and emitted. -/
def decodeOp (len : Nat) (data : FrameWord) (record : Config.Params → Memory → Except Fault DecoderOutputs)
    (s : State) : Result :=
  if len = Config.frameLen then
    let filled := s.receive data
    ofAccess (record s.params filled.rx) filled.emit
  else .next (s.raise (.malformedFrame len))

/-- The echoed opcode, `RX.B[0]` (R197). -/
def echoOf (m : Memory) : Except Fault Byte := (memRead m 0 1).map fun v => BitVec.ofNat 8 v

/-- The `MotorStatus` record (R198, R199, R200). -/
def motorStatusRecord (p : Config.Params) (m : Memory) : Except Fault DecoderOutputs := do
  let echo ← echoOf m
  let temperature ← des8s 1 m
  let torqueCurrent ← des16s 2 m
  let rawSpeed ← des16s 4 m
  let encoderPosition ← des16u 6 m
  return { DecoderOutputs.idle with
    stValid := true
    stTemp := trunc 8 (ident temperature)
    stTorque := trunc 16 (ident torqueCurrent)
    stSpeed := trunc 16 (wireToRpm p.divMode rawSpeed)
    stEnc := trunc 16 (ident encoderPosition)
    rxOpcode := echo }

/-- The `MultiTurnAngle` record (R202, R203, R204, R205). -/
def multiTurnAngleRecord (p : Config.Params) (m : Memory) : Except Fault DecoderOutputs := do
  let echo ← echoOf m
  let a ← des56 1 m
  return { DecoderOutputs.idle with
    angValid := true
    angDeg := trunc 64 (cdegToDeg p.divMode (extendAngle p.angleExt a))
    rxOpcode := echo }

/-- `MotorStatus`, shape 0 (R199). -/
def execMotorStatus (len : Nat) (data : FrameWord) (s : State) : Result :=
  decodeOp len data motorStatusRecord s

/-- `MultiTurnAngle`, shape 1 (R205). -/
def execMultiTurnAngle (len : Nat) (data : FrameWord) (s : State) : Result :=
  decodeOp len data multiTurnAngleRecord s

end Sys2Proof.Machine
end

