-- ==== Sys2Proof/Machine/Dispatch.lean ====
section
/-! DEFINITION. The meaning of every instruction, one arm per constructor of Instr: the closed, exhaustive dispatch of
spec/43_dispatcher.md R180, R181 and the shape selection of spec/44_decoder.md R195. -/

namespace Sys2Proof.Machine

def exec (i : Instr) (s : State) : Host.Outcome State Fault Refusal :=
  match i with
  | .encoderOffset offset => Sys2Proof.Machine.execEncoderOffset offset s
  | .torqueSetpoint current => Sys2Proof.Machine.execTorqueSetpoint current s
  | .speedSetpoint rpm => Sys2Proof.Machine.execSpeedSetpoint rpm s
  | .positionCtrl1 degrees => Sys2Proof.Machine.execPositionCtrl1 degrees s
  | .positionCtrl2 speedLimitRpm degrees => Sys2Proof.Machine.execPositionCtrl2 speedLimitRpm degrees s
  | .positionCtrl3 degrees dir => Sys2Proof.Machine.execPositionCtrl3 degrees dir s
  | .positionCtrl4 degrees speedLimitRpm dir => Sys2Proof.Machine.execPositionCtrl4 degrees speedLimitRpm dir s
  | .queryMotorStatus => Sys2Proof.Machine.execQueryMotorStatus s
  | .queryMultiTurnAngle => Sys2Proof.Machine.execQueryMultiTurnAngle s
  | .motorStatus len data => Sys2Proof.Machine.execMotorStatus len data s
  | .multiTurnAngle len data => Sys2Proof.Machine.execMultiTurnAngle len data s

end Sys2Proof.Machine
end

