-- ==== Sys2Proof/Machine/Paths.lean ====
section
/-! DEFINITION. The two paths of the block at one sampling instant (spec/00_scope.md R18): each runs the instruction
its ports name, or leaves its outputs idle. -/

namespace Sys2Proof.Machine

/-- The encoder path (43_dispatcher.md R190): with `cmd_valid = 1` the command of the descriptor, or `IllegalKind`
where it names none (60_exceptions.md R222). -/
def encoderPath (s : State) : Result :=
  if s.inp.cmdValid then
    match decode (.command s.inp.descriptor) with
    | .ok i => exec i s
    | .error _ => .next (s.raise .illegalKind)
  else .next s

/-- The decoder path (44_decoder.md R207): with `rx_valid = 1` the decode operation of the stated shape; every
received frame names one (30_encoding.md R97). -/
def decoderPath (s : State) : Result :=
  if s.inp.rxValid then exec (decodeReceived s.inp.received) s else .next s

end Sys2Proof.Machine
end

