-- ==== Sys2Proof/Machine/Step.lean ====
section
/-! DEFINITION. One step is one sampling instant (spec/00_scope.md R15): the host's next port values, then the encoder
path, then the decoder path. The order of the two cannot be observed (spec/70_reset_and_hazards.md R254; entry 11). -/

namespace Sys2Proof.Machine

/-- One sampling instant. -/
def step (s : State) : Host.Outcome State Fault Refusal :=
  andThen (encoderPath s.sample) decoderPath

/-- The state in which the instruction of a table word is presented at the very next sampling instant (entries 6, 7). -/
def State.withFetchWord (s : State) (nbits w : Nat) : State := s.present (tableWordInputs nbits w)

end Sys2Proof.Machine
end

