-- ==== Sys2Proof/Safety.lean ====
section
/-! DEFINITION. The terms the statements are written in: what a run is, what the outputs always satisfy (`State.Inv`),
and the two complete step functions of the spec (spec/43_dispatcher.md R190, spec/44_decoder.md R207) written a second
time, independently of the meanings: frames as lists of port bytes (spec/30_encoding.md R81), fields as wrapping
machine arithmetic on the ports, range conditions as the operand bounds of R185, divisions as signed machine division.
No definition of the machine uses this file. -/

namespace Sys2Proof.Machine

/-! ### Runs -/

/-- The next `n` sampling instants, the first first; a stop ends the list. -/
def trace : Nat → State → List State
  | 0, _ => []
  | n + 1, s =>
    match step s with
    | .next t => t :: trace n t
    | _ => []

/-- Everything the block drives at one instant. -/
structure Outputs where
  enc : EncoderOutputs
  dec : DecoderOutputs
  errTransport : Nat
deriving DecidableEq, Repr

/-- The outputs of an instant. -/
def State.outputs (s : State) : Outputs := { enc := s.enc, dec := s.dec, errTransport := s.errTransport }

/-- The `send` events of a run in order, identifier and frame (43_dispatcher.md R183). -/
def sends (run : List State) : List (BitVec 16 × FrameWord) :=
  run.filterMap fun t => if t.enc.txValid then some (t.enc.txId, t.enc.txData) else none

/-! ### Outputs by name -/

/-- A frame from its eight bytes, byte 0 first (20_memory.md R55). -/
def frame8 (b0 b1 b2 b3 b4 b5 b6 b7 : Byte) : FrameWord :=
  b7 ++ b6 ++ b5 ++ b4 ++ b3 ++ b2 ++ b1 ++ b0

/-- Byte `k` of the two's-complement representation of an integer (00_scope.md R11, 20_memory.md R56). -/
def intByte (c : Int) (k : Nat) : Byte := BitVec.ofInt 8 (c / 256 ^ k)

/-- The direction byte on the wire (30_encoding.md R88). -/
def wireDirection : Direction → Byte
  | .clockwise => 0x00
  | .counterclockwise => 0x01

/-- The encoder outputs when a frame is sent, with the value of `err_range`. -/
def sentOutputs (frame : FrameWord) (range : Bool) : EncoderOutputs :=
  { txValid := true, txId := 0x0141, txData := frame, errKind := false, errRange := range }

/-- The encoder outputs when an out-of-range command is withheld (43_dispatcher.md R186). -/
def withheldOutputs : EncoderOutputs :=
  { txValid := false, txId := 0x0141, txData := 0, errKind := false, errRange := true }

/-- The encoder outputs of `IllegalKind` (60_exceptions.md R222). -/
def illegalKindOutputs : EncoderOutputs :=
  { txValid := false, txId := 0x0141, txData := 0, errKind := true, errRange := false }

/-- The decoder outputs of `MalformedFrame` (60_exceptions.md R224). -/
def malformedOutputs : DecoderOutputs :=
  { stValid := false, stTemp := 0, stTorque := 0, stSpeed := 0, stEnc := 0,
    angValid := false, angDeg := 0, rxOpcode := 0, errMalformed := true }

/-! ### The invariant -/

/-- The value on `tp_err` fits its port (10_state.md R31). -/
abbrev Inputs.legal (p : Config.Params) (i : Inputs) : Prop := i.tpErr < 2 ^ p.tpw

/-- What holds of every sampling instant. -/
structure State.Inv (s : State) : Prop where
  /-- The parameters are legal (00_scope.md R8). -/
  params_legal : Config.paramsLegal s.params
  /-- Every value on `tp_err`, now and to come, fits the port. -/
  inp_legal : s.inp.legal s.params
  upcoming_legal : ∀ i ∈ s.upcoming, i.legal s.params
  /-- The frame spaces are in canonical form. -/
  tx_wf : s.tx.wf = true
  rx_wf : s.rx.wf = true
  /-- `tx_id` carries 0x0141 at all times (43_dispatcher.md R183). -/
  tx_id : s.enc.txId = 0x0141
  /-- A sent frame is the frame in `TX` (43_dispatcher.md R183); nothing sent, `tx_data` 0 (10_state.md R32). -/
  sent_frame : s.enc.txValid = true → s.enc.txData = portOfFrame s.tx
  unsent_zero : s.enc.txValid = false → s.enc.txData = 0
  /-- An encode transaction ends in a frame or a flag; without one the encoder outputs are idle (10_state.md R32). -/
  command_answered : s.inp.cmdValid = true →
    s.enc.txValid = true ∨ s.enc.errKind = true ∨ s.enc.errRange = true
  encoder_idle : s.inp.cmdValid = false →
    s.enc.txValid = false ∧ s.enc.errKind = false ∧ s.enc.errRange = false
  /-- An illegal kind sends nothing and excludes `err_range` (60_exceptions.md R222, R228). -/
  illegal_kind_alone : s.enc.errKind = true → s.enc.txValid = false ∧ s.enc.errRange = false
  /-- Exactly one of `st_valid`, `ang_valid`, `err_malformed` in a decode transaction, none without one
  (44_decoder.md R207). -/
  decoder_answers : s.dec.stValid.toNat + s.dec.angValid.toNat + s.dec.errMalformed.toNat = s.inp.rxValid.toNat
  /-- Telemetry is 0 under a zero valid flag (10_state.md R32). -/
  status_zero : s.dec.stValid = false →
    s.dec.stTemp = 0 ∧ s.dec.stTorque = 0 ∧ s.dec.stSpeed = 0 ∧ s.dec.stEnc = 0
  angle_zero : s.dec.angValid = false → s.dec.angDeg = 0
  opcode_zero : s.dec.stValid = false → s.dec.angValid = false → s.dec.rxOpcode = 0
  /-- `err_transport = tp_err` (10_state.md R31). -/
  transport : s.errTransport = s.inp.tpErr

/-! ### The encoder path as one function (43_dispatcher.md R190) -/

/-- Byte `k` of a port value. -/
def portByte {n : Nat} (v : BitVec n) (k : Nat) : Byte := v.extractLsb' (8 * k) 8

/-- The frame of the command on the ports, none for an illegal kind (30_encoding.md R81, R86, R87). -/
def Inputs.commandFrame (i : Inputs) : Option FrameWord :=
  let a := i.opA
  let half : BitVec 16 := a.setWidth 16 * 100
  let speed := a * 600
  let pos := a * 100
  let limit := i.opB * 600
  let dir : Byte := i.opDir.setWidth 8
  match i.cmdKind.toNat with
  | 0 => some (frame8 0x91 0 0 0 0 0 (portByte a 0) (portByte a 1))
  | 1 => some (frame8 0xA1 0 0 0 (portByte a 0) (portByte a 1) 0 0)
  | 2 => some (frame8 0xA2 0 0 0 (portByte speed 0) (portByte speed 1) (portByte speed 2) (portByte speed 3))
  | 3 => some (frame8 0xA3 0 0 0 (portByte pos 0) (portByte pos 1) (portByte pos 2) (portByte pos 3))
  | 4 => some (frame8 0xA4 0 (portByte limit 0) (portByte limit 1)
      (portByte pos 0) (portByte pos 1) (portByte pos 2) (portByte pos 3))
  | 5 => some (frame8 0xA5 dir 0 0 (portByte half 0) (portByte half 1) 0 0)
  | 6 => some (frame8 0xA6 dir (portByte limit 0) (portByte limit 1) (portByte half 0) (portByte half 1) 0 0)
  | 7 => some (frame8 0x9C 0 0 0 0 0 0 0)
  | 8 => some (frame8 0x92 0 0 0 0 0 0 0)
  | _ => none

/-- `range_err` in operand terms, by kind (43_dispatcher.md R185). -/
def Inputs.outOfBounds (i : Inputs) : Bool :=
  let a := i.opA.toInt
  let half := (i.opA.setWidth 16).toNat
  let limit := i.opB.toNat
  match i.cmdKind.toNat with
  | 2 => decide (a < -3579139 ∨ 3579139 < a)
  | 3 => decide (a < -21474836 ∨ 21474836 < a)
  | 4 => decide (109 < limit ∨ a < -21474836 ∨ 21474836 < a)
  | 5 => decide (655 < half)
  | 6 => decide (109 < limit ∨ 655 < half)
  | _ => false

/-- `enc_step` (43_dispatcher.md R190). -/
def encStep (p : Config.Params) (i : Inputs) : EncoderOutputs :=
  if i.cmdValid then
    match i.commandFrame with
    | none => illegalKindOutputs
    | some frame =>
      if i.outOfBounds ∧ p.rangePolicy = .reject then withheldOutputs else sentOutputs frame i.outOfBounds
  else { txValid := false, txId := 0x0141, txData := 0, errKind := false, errRange := false }

/-- The `send` event of an encode transaction, if it causes one (43_dispatcher.md R183, R186, R188). -/
def sendOf (p : Config.Params) (i : Inputs) : Option (BitVec 16 × FrameWord) :=
  if i.cmdValid ∧ ¬(i.outOfBounds ∧ p.rangePolicy = .reject) then
    i.commandFrame.map fun frame => (0x0141, frame)
  else none

/-! ### The decoder path as one function (44_decoder.md R207) -/

/-- Signed machine division by a positive constant, rounded by `DIV_MODE`: machine division truncates, and rounding
down takes one off where a negative dividend leaves a remainder (40_scaling.md R111). -/
def divRounded {n : Nat} (mode : Config.DivMode) (a b : BitVec n) : BitVec n :=
  match mode with
  | .trunc => a.sdiv b
  | .floor => if a.msb ∧ a.srem b ≠ 0 then a.sdiv b - 1 else a.sdiv b

/-- The angle accumulator on 64 bits (44_decoder.md R203). -/
def accumulator (ext : Config.AngleExt) (a : BitVec 56) : BitVec 64 :=
  match ext with
  | .sext56 => a.signExtend 64
  | .zext56 => a.setWidth 64
  | .signMag56 => if a.msb then -((a.setWidth 55).setWidth 64) else (a.setWidth 55).setWidth 64

/-- `dec_step` (44_decoder.md R207), the speed as one sixth of the raw value (40_scaling.md R115). -/
def decStep (p : Config.Params) (i : Inputs) : DecoderOutputs :=
  let d := i.rxData
  if i.rxValid then
    if i.rxLen ≠ 8 then malformedOutputs
    else if i.rxShape = 0 then
      { stValid := true, stTemp := d.extractLsb' 8 8, stTorque := d.extractLsb' 16 16,
        stSpeed := divRounded p.divMode (d.extractLsb' 32 16) 6, stEnc := d.extractLsb' 48 16,
        angValid := false, angDeg := 0, rxOpcode := d.extractLsb' 0 8, errMalformed := false }
    else
      { stValid := false, stTemp := 0, stTorque := 0, stSpeed := 0, stEnc := 0,
        angValid := true, angDeg := divRounded p.divMode (accumulator p.angleExt (d.extractLsb' 8 56)) 100,
        rxOpcode := d.extractLsb' 0 8, errMalformed := false }
  else
    { stValid := false, stTemp := 0, stTorque := 0, stSpeed := 0, stEnc := 0,
      angValid := false, angDeg := 0, rxOpcode := 0, errMalformed := false }

/-- The outputs of one sampling instant as a function of its inputs and the parameters (10_state.md R21). -/
def outputsOf (p : Config.Params) (i : Inputs) : Outputs :=
  { enc := encStep p i, dec := decStep p i, errTransport := i.tpErr % 2 ^ p.tpw }

/-! ### Which inputs are read (10_state.md R26, R28, R33) -/

/-- The encoder path reads the same values from both. -/
def sameCommandRead (i j : Inputs) : Prop :=
  i.cmdValid = j.cmdValid ∧ (i.cmdValid = true →
    i.cmdKind = j.cmdKind ∧
    (i.cmdKind.toNat ∈ [2, 3, 4] → i.opA = j.opA) ∧
    (i.cmdKind.toNat ∈ [0, 1, 5, 6] → i.opA.setWidth 16 = j.opA.setWidth 16) ∧
    (i.cmdKind.toNat ∈ [4, 6] → i.opB = j.opB) ∧
    (i.cmdKind.toNat ∈ [5, 6] → i.opDir = j.opDir))

/-- The decoder path reads the same values from both. -/
def sameFrameRead (i j : Inputs) : Prop :=
  i.rxValid = j.rxValid ∧ (i.rxValid = true →
    i.rxLen = j.rxLen ∧ (i.rxLen = 8 → i.rxShape = j.rxShape ∧ i.rxData = j.rxData))

/-- The wire form of a multi-turn angle in sign-and-magnitude, as a test bench builds it (40_scaling.md R119). -/
def signMagnitude (c : Int) : BitVec 56 := (if c < 0 then 1#1 else 0#1) ++ BitVec.ofNat 55 c.natAbs

/-! ### Instructions by path -/

/-- The nine encode operations (00_scope.md R3). -/
def isCommand (i : Instr) : Bool := decide ((tableRow i.operation).path = .tx)

/-- The operand bounds of the range condition, by command (43_dispatcher.md R185). -/
def operandsOutOfBounds : Instr → Bool
  | .speedSetpoint rpm => decide (rpm < -3579139 ∨ 3579139 < rpm)
  | .positionCtrl1 degrees => decide (degrees < -21474836 ∨ 21474836 < degrees)
  | .positionCtrl2 limit degrees => decide (109 < limit ∨ degrees < -21474836 ∨ 21474836 < degrees)
  | .positionCtrl3 degrees _ => decide (655 < degrees)
  | .positionCtrl4 degrees limit _ => decide (109 < limit ∨ 655 < degrees)
  | _ => false

end Sys2Proof.Machine
end

