-- ==== Sys2Proof/Certificates/Slice0/Obligations.lean ====
section
/-! DEFINITION. The statements for the provers, from the numbered rules of spec/. A statement about a sampling instant
takes the port values from the head of `upcoming` (entry 1) unless it says otherwise. -/

open Sys2Proof Sys2Proof.Machine

/-! ### The nine commands: what each reads from the ports and what it does, in every state -/

/-- 42_encoder.md R151: kind 0 reads `op_a[15:0]` and nothing else; the frame is the opcode, five zero bytes and the
raw offset, low byte first; never `err_range`; nothing else changes. -/
def Obligations.EncoderOffsetSendsRawOffset : Prop :=
  (∀ d : CommandDescriptor, d.kind = 0 →
    decode (.command d) = .ok (.encoderOffset (d.opA.setWidth 16).toNat)) ∧
  ∀ (offset : Nat) (s : State),
    let frame := frame8 0x91 0 0 0 0 0 (intByte offset 0) (intByte offset 1)
    exec (.encoderOffset offset) s = .next { s with tx := frameOfPort frame, enc := sentOutputs frame false }

/-- 42_encoder.md R152: kind 1 reads `op_a[15:0]` as a signed value; bytes 4 and 5 carry it in two's complement; never
`err_range`; nothing else changes. -/
def Obligations.TorqueSetpointSendsRawCurrent : Prop :=
  (∀ d : CommandDescriptor, d.kind = 1 →
    decode (.command d) = .ok (.torqueSetpoint (d.opA.setWidth 16).toInt)) ∧
  ∀ (current : Int) (s : State),
    let frame := frame8 0xA1 0 0 0 (intByte current 0) (intByte current 1) 0 0
    exec (.torqueSetpoint current) s = .next { s with tx := frameOfPort frame, enc := sentOutputs frame false }

/-- 42_encoder.md R153: kind 2 reads `op_a` as `i32`; bytes 4 to 7 carry the low 32 bits of `600 * rpm`; beyond
±3579139 rpm `err_range` is 1 and the wrapped frame is sent or withheld by `RANGE_POLICY`. -/
def Obligations.SpeedSetpointSendsScaledSpeed : Prop :=
  (∀ d : CommandDescriptor, d.kind = 2 → decode (.command d) = .ok (.speedSetpoint d.opA.toInt)) ∧
  ∀ (rpm : Int) (s : State),
    let c := 600 * rpm
    let frame := frame8 0xA2 0 0 0 (intByte c 0) (intByte c 1) (intByte c 2) (intByte c 3)
    ((-3579139 ≤ rpm ∧ rpm ≤ 3579139) →
      exec (.speedSetpoint rpm) s = .next { s with tx := frameOfPort frame, enc := sentOutputs frame false }) ∧
    ((rpm < -3579139 ∨ 3579139 < rpm) →
      (s.params.rangePolicy = .wrapSend →
        exec (.speedSetpoint rpm) s = .next { s with tx := frameOfPort frame, enc := sentOutputs frame true }) ∧
      (s.params.rangePolicy = .reject →
        exec (.speedSetpoint rpm) s = .next { s with tx := frameOfPort frame, enc := withheldOutputs }))

/-- 42_encoder.md R154: kind 3 reads `op_a` as `i32`; bytes 4 to 7 carry the low 32 bits of `100 * degrees`; beyond
±21474836 degrees `err_range` is 1 and the wrapped frame is sent or withheld by `RANGE_POLICY`. -/
def Obligations.PositionCtrl1SendsScaledPosition : Prop :=
  (∀ d : CommandDescriptor, d.kind = 3 → decode (.command d) = .ok (.positionCtrl1 d.opA.toInt)) ∧
  ∀ (degrees : Int) (s : State),
    let c := 100 * degrees
    let frame := frame8 0xA3 0 0 0 (intByte c 0) (intByte c 1) (intByte c 2) (intByte c 3)
    ((-21474836 ≤ degrees ∧ degrees ≤ 21474836) →
      exec (.positionCtrl1 degrees) s = .next { s with tx := frameOfPort frame, enc := sentOutputs frame false }) ∧
    ((degrees < -21474836 ∨ 21474836 < degrees) →
      (s.params.rangePolicy = .wrapSend →
        exec (.positionCtrl1 degrees) s = .next { s with tx := frameOfPort frame, enc := sentOutputs frame true }) ∧
      (s.params.rangePolicy = .reject →
        exec (.positionCtrl1 degrees) s = .next { s with tx := frameOfPort frame, enc := withheldOutputs }))

/-- 42_encoder.md R155: kind 4 reads `op_b` and `op_a`; the speed limit stands at bytes 2 and 3, the position at bytes
4 to 7, wrapping independently; either out of range raises the one flag. -/
def Obligations.PositionCtrl2SendsLimitAndPosition : Prop :=
  (∀ d : CommandDescriptor, d.kind = 4 →
    decode (.command d) = .ok (.positionCtrl2 d.opB.toNat d.opA.toInt)) ∧
  ∀ (limit : Nat) (degrees : Int) (s : State),
    let v := 600 * (limit : Int)
    let c := 100 * degrees
    let frame := frame8 0xA4 0 (intByte v 0) (intByte v 1) (intByte c 0) (intByte c 1) (intByte c 2) (intByte c 3)
    ((limit ≤ 109 ∧ -21474836 ≤ degrees ∧ degrees ≤ 21474836) →
      exec (.positionCtrl2 limit degrees) s =
        .next { s with tx := frameOfPort frame, enc := sentOutputs frame false }) ∧
    ((109 < limit ∨ degrees < -21474836 ∨ 21474836 < degrees) →
      (s.params.rangePolicy = .wrapSend →
        exec (.positionCtrl2 limit degrees) s =
          .next { s with tx := frameOfPort frame, enc := sentOutputs frame true }) ∧
      (s.params.rangePolicy = .reject →
        exec (.positionCtrl2 limit degrees) s = .next { s with tx := frameOfPort frame, enc := withheldOutputs }))

/-- 42_encoder.md R156: kind 5 reads `op_a[15:0]` and `op_dir`; byte 1 is the direction alone, bytes 4 and 5 the low 16
bits of `100 * degrees`; beyond 655 degrees `err_range` is 1. -/
def Obligations.PositionCtrl3SendsDirectionAndPosition : Prop :=
  (∀ d : CommandDescriptor, d.kind = 5 →
    decode (.command d) = .ok (.positionCtrl3 (d.opA.setWidth 16).toNat
      (if d.opDir = 0 then .clockwise else .counterclockwise))) ∧
  ∀ (degrees : Nat) (dir : Direction) (s : State),
    let c := 100 * (degrees : Int)
    let frame := frame8 0xA5 (wireDirection dir) 0 0 (intByte c 0) (intByte c 1) 0 0
    (degrees ≤ 655 →
      exec (.positionCtrl3 degrees dir) s =
        .next { s with tx := frameOfPort frame, enc := sentOutputs frame false }) ∧
    (655 < degrees →
      (s.params.rangePolicy = .wrapSend →
        exec (.positionCtrl3 degrees dir) s =
          .next { s with tx := frameOfPort frame, enc := sentOutputs frame true }) ∧
      (s.params.rangePolicy = .reject →
        exec (.positionCtrl3 degrees dir) s = .next { s with tx := frameOfPort frame, enc := withheldOutputs }))

/-- 42_encoder.md R157: kind 6 reads `op_a[15:0]`, `op_b` and `op_dir`; direction at byte 1, speed limit at bytes 2
and 3, position at bytes 4 and 5; either out of range raises the one flag. -/
def Obligations.PositionCtrl4SendsDirectionLimitAndPosition : Prop :=
  (∀ d : CommandDescriptor, d.kind = 6 →
    decode (.command d) = .ok (.positionCtrl4 (d.opA.setWidth 16).toNat d.opB.toNat
      (if d.opDir = 0 then .clockwise else .counterclockwise))) ∧
  ∀ (degrees limit : Nat) (dir : Direction) (s : State),
    let v := 600 * (limit : Int)
    let c := 100 * (degrees : Int)
    let frame := frame8 0xA6 (wireDirection dir) (intByte v 0) (intByte v 1) (intByte c 0) (intByte c 1) 0 0
    ((limit ≤ 109 ∧ degrees ≤ 655) →
      exec (.positionCtrl4 degrees limit dir) s =
        .next { s with tx := frameOfPort frame, enc := sentOutputs frame false }) ∧
    ((109 < limit ∨ 655 < degrees) →
      (s.params.rangePolicy = .wrapSend →
        exec (.positionCtrl4 degrees limit dir) s =
          .next { s with tx := frameOfPort frame, enc := sentOutputs frame true }) ∧
      (s.params.rangePolicy = .reject →
        exec (.positionCtrl4 degrees limit dir) s = .next { s with tx := frameOfPort frame, enc := withheldOutputs }))

/-- 42_encoder.md R158, R159: kinds 7 and 8 read no operand port; the frame is the opcode and seven zero bytes, in every
state. -/
def Obligations.QueriesSendTheOpcodeAlone : Prop :=
  (∀ d : CommandDescriptor, d.kind = 7 → decode (.command d) = .ok .queryMotorStatus) ∧
  (∀ d : CommandDescriptor, d.kind = 8 → decode (.command d) = .ok .queryMultiTurnAngle) ∧
  ∀ s : State,
    let status := frame8 0x9C 0 0 0 0 0 0 0
    let angle := frame8 0x92 0 0 0 0 0 0 0
    exec .queryMotorStatus s = .next { s with tx := frameOfPort status, enc := sentOutputs status false } ∧
    exec .queryMultiTurnAngle s = .next { s with tx := frameOfPort angle, enc := sentOutputs angle false }

/-! ### The two decode operations -/

/-- 44_decoder.md R199: shape 0 with 8 bytes gives the four fields at their bits, the speed as
`idiv(raw * 60, 360)`, byte 0 on `rx_opcode`; any other length gives `MalformedFrame`; nothing else changes. -/
def Obligations.MotorStatusDecodesTelemetry : Prop :=
  (∀ r : ReceivedFrame, r.shape = 0 → decode (.received r) = .ok (.motorStatus r.len.toNat r.data)) ∧
  (∀ (data : FrameWord) (s : State),
    let scaled := (data.extractLsb' 32 16).toInt * 60
    exec (.motorStatus 8 data) s = .next { s with
      rx := frameOfPort data
      dec := { stValid := true
               stTemp := data.extractLsb' 8 8
               stTorque := data.extractLsb' 16 16
               stSpeed := BitVec.ofInt 16
                 (match s.params.divMode with
                  | .trunc => scaled.tdiv 360
                  | .floor => scaled.fdiv 360)
               stEnc := data.extractLsb' 48 16
               angValid := false
               angDeg := 0
               rxOpcode := data.extractLsb' 0 8
               errMalformed := false } }) ∧
  (∀ (len : Nat) (data : FrameWord) (s : State), len ≠ 8 →
    exec (.motorStatus len data) s = .next { s with dec := malformedOutputs })

/-- 44_decoder.md R205 (with R203): shape 1 with 8 bytes gives the 56 bits 63:8, extended by `ANGLE_EXT` and divided by
100 under `DIV_MODE`, byte 0 on `rx_opcode`; any other length gives `MalformedFrame`; nothing else changes. -/
def Obligations.MultiTurnAngleDecodesDegrees : Prop :=
  (∀ r : ReceivedFrame, r.shape = 1 → decode (.received r) = .ok (.multiTurnAngle r.len.toNat r.data)) ∧
  (∀ (data : FrameWord) (s : State),
    let a := data.extractLsb' 8 56
    let magnitude : Int := (a.setWidth 55).toNat
    let acc : Int :=
      match s.params.angleExt with
      | .sext56 => a.toInt
      | .zext56 => a.toNat
      | .signMag56 => if a.msb then -magnitude else magnitude
    exec (.multiTurnAngle 8 data) s = .next { s with
      rx := frameOfPort data
      dec := { stValid := false
               stTemp := 0
               stTorque := 0
               stSpeed := 0
               stEnc := 0
               angValid := true
               angDeg := BitVec.ofInt 64
                 (match s.params.divMode with
                  | .trunc => acc.tdiv 100
                  | .floor => acc.fdiv 100)
               rxOpcode := data.extractLsb' 0 8
               errMalformed := false } }) ∧
  (∀ (len : Nat) (data : FrameWord) (s : State), len ≠ 8 →
    exec (.multiTurnAngle len data) s = .next { s with dec := malformedOutputs })

/-- 44_decoder.md R197: with 8 bytes, byte 0 is copied to `rx_opcode`, and no other output depends on it. -/
def Obligations.ByteZeroOnlyReachesRxOpcode : Prop :=
  ∀ (data other : FrameWord) (s t u : State), data.extractLsb' 8 56 = other.extractLsb' 8 56 →
    (exec (.motorStatus 8 data) s = .next t → exec (.motorStatus 8 other) s = .next u →
      t.dec.rxOpcode = data.extractLsb' 0 8 ∧ u.dec = { t.dec with rxOpcode := other.extractLsb' 0 8 }) ∧
    (exec (.multiTurnAngle 8 data) s = .next t → exec (.multiTurnAngle 8 other) s = .next u →
      t.dec.rxOpcode = data.extractLsb' 0 8 ∧ u.dec = { t.dec with rxOpcode := other.extractLsb' 0 8 })

/-! ### Frames of the instructions, and that none stops -/

/-- An encode operation changes `TX` and the encoder outputs only: `TX` holds its frame, every address outside the frame
reads 0, every byte of `RX` reads as before (20_memory.md R51, R52). -/
def Obligations.EncodeOperationsChangeOnlyTheEncoderSide : Prop :=
  ∀ (i : Instr) (s t : State), isCommand i = true → exec i s = .next t →
    t = { s with tx := t.tx, enc := t.enc } ∧ t.tx.wf = true ∧
    (∀ a, byteAt t.tx a = if a < 8 then lane (encodeFrame i) a else 0) ∧
    (∀ a, byteAt t.rx a = byteAt s.rx a)

/-- A decode operation changes `RX` and the decoder outputs only: every byte of `TX` reads as before, `RX` holds the
received frame, and nothing of it when the length is not 8 (20_memory.md R51, R53; entry 9). -/
def Obligations.DecodeOperationsChangeOnlyTheDecoderSide : Prop :=
  ∀ (len : Nat) (data : FrameWord) (s t : State),
    (exec (.motorStatus len data) s = .next t ∨ exec (.multiTurnAngle len data) s = .next t) →
    t = { s with rx := t.rx, dec := t.dec } ∧
    (∀ a, byteAt t.tx a = byteAt s.tx a) ∧
    (∀ a, byteAt t.rx a = if len = 8 then (if a < 8 then lane data a else 0) else byteAt s.rx a)

/-- No instruction faults or is refused, in any state, with any operands: no access leaves the frame
(20_memory.md R58), an encode operation never fails (42_encoder.md R150), an error is a flag (60_exceptions.md R230). -/
def Obligations.NoInstructionStops : Prop :=
  ∀ (i : Instr) (s : State), ∃ t, exec i s = .next t

/-! ### The range monitor and the send -/

/-- 43_dispatcher.md R185: `err_range` of every command in operand terms, and that the bounds of the table are those of
its scaled fields. -/
def Obligations.RangeFlagIffOperandsOutOfBounds : Prop :=
  (∀ (i : Instr) (s : State), isCommand i = true →
    ∃ t, exec i s = .next t ∧ t.enc.errRange = operandsOutOfBounds i) ∧
  (∀ rpm : Int, operandsOutOfBounds (.speedSetpoint rpm) = !fitsS (600 * rpm) 32) ∧
  (∀ degrees : Int, operandsOutOfBounds (.positionCtrl1 degrees) = !fitsS (100 * degrees) 32) ∧
  (∀ (limit : Nat) (degrees : Int), operandsOutOfBounds (.positionCtrl2 limit degrees) =
    !(fitsU (600 * limit) 16 && fitsS (100 * degrees) 32)) ∧
  (∀ (degrees : Nat) (dir : Direction),
    operandsOutOfBounds (.positionCtrl3 degrees dir) = !fitsU (100 * degrees) 16) ∧
  (∀ (degrees limit : Nat) (dir : Direction), operandsOutOfBounds (.positionCtrl4 degrees limit dir) =
    !(fitsU (600 * limit) 16 && fitsU (100 * degrees) 16))

/-- 43_dispatcher.md R186: every command goes on; out of range it is sent wrapped or withheld by `RANGE_POLICY`, in both
with `err_range = range_err`; in range it is sent in both. -/
def Obligations.RangePolicyDecidesTheSend : Prop :=
  Config.defaults.rangePolicy = .wrapSend ∧
  ∀ (i : Instr) (s : State), isCommand i = true → ∃ t, exec i s = .next t ∧
    (s.params.rangePolicy = .wrapSend → t.enc = sentOutputs (encodeFrame i) (operandsOutOfBounds i)) ∧
    (s.params.rangePolicy = .reject →
      t.enc = if operandsOutOfBounds i then withheldOutputs else sentOutputs (encodeFrame i) false)

/-- A frame is an instance of its own row: opcode, every reserved byte zero, direction byte 0x00 or 0x01, whatever the
operands (30_encoding.md R90, R96). -/
def Obligations.SentFrameIsInstanceOfItsRow : Prop :=
  ∀ (i : Instr) (s t : State), isCommand i = true → exec i s = .next t → t.enc.txValid = true →
    isInstance .tx t.enc.txData i.operation = true

/-- The direction reaches byte 1 and no other byte, and never the sign of a position; the commands without a direction
leave byte 1 zero (42_encoder.md R161). -/
def Obligations.DirectionOccupiesByteOneAlone : Prop :=
  (∀ (degrees limit : Nat) (dir : Direction),
    lane (encodeFrame (.positionCtrl3 degrees dir)) 1 = wireDirection dir ∧
    lane (encodeFrame (.positionCtrl4 degrees limit dir)) 1 = wireDirection dir) ∧
  (∀ (degrees limit : Nat) (dir dir' : Direction) (s t u : State) (a : Nat), a ≠ 1 →
    (exec (.positionCtrl3 degrees dir) s = .next t → exec (.positionCtrl3 degrees dir') s = .next u →
      byteAt t.tx a = byteAt u.tx a ∧ t.enc.errRange = u.enc.errRange) ∧
    (exec (.positionCtrl4 degrees limit dir) s = .next t → exec (.positionCtrl4 degrees limit dir') s = .next u →
      byteAt t.tx a = byteAt u.tx a ∧ t.enc.errRange = u.enc.errRange)) ∧
  (∀ (degrees : Int) (limit : Nat) (s t : State),
    (exec (.positionCtrl1 degrees) s = .next t ∨ exec (.positionCtrl2 limit degrees) s = .next t) →
      byteAt t.tx 1 = 0)

/-! ### One sampling instant -/

/-- A step runs the instruction the ports of the next instant name, in the state `sample` makes of that instant: the
host's port values, a fresh `TX` (20_memory.md R52), idle outputs (10_state.md R32), `tp_err` passed through
(60_exceptions.md R226); with both paths busy, the command and then the decode operation.
THE MODEL'S CHOICES in it, which no rule of the spec states: the port values are the head of the listing `upcoming`
(entry 1); an empty listing gives the idle inputs (entry 2), whose unread ports are 0 (entry 5); `RX` is empty until a received frame passes the length
check, and `TX` is empty in an instant without a command (entry 9); the command runs before the decode operation
(entry 11). -/
def Obligations.StepRunsDecodedInstruction : Prop :=
  (∀ s : State, s.sample =
    { s with
      inp := s.upcoming.headD Inputs.idle
      upcoming := s.upcoming.tail
      tx := []
      rx := []
      enc := EncoderOutputs.idle
      dec := DecoderOutputs.idle
      errTransport := (s.upcoming.headD Inputs.idle).tpErr % 2 ^ s.params.tpw }) ∧
  (∀ (s : State) (i : Instr), s.sample.inp.cmdValid = true → s.sample.inp.rxValid = false →
    decode (.command s.sample.inp.descriptor) = .ok i → step s = exec i s.sample) ∧
  (∀ (s : State) (j : Instr), s.sample.inp.cmdValid = false → s.sample.inp.rxValid = true →
    decode (.received s.sample.inp.received) = .ok j → step s = exec j s.sample) ∧
  (∀ (s : State) (i j : Instr), s.sample.inp.cmdValid = true → s.sample.inp.rxValid = true →
    decode (.command s.sample.inp.descriptor) = .ok i → decode (.received s.sample.inp.received) = .ok j →
    step s = andThen (exec i s.sample) (exec j))

/-- 43_dispatcher.md R190 and 44_decoder.md R207: a step answers a next state, whose outputs are `enc_step` and
`dec_step` of the presented inputs, beside `err_transport = tp_err`; `err_kind` and `err_range` are never both 1, exactly
one decoder flag is 1 in a decode transaction and none without; the parameters stay, the listing moves on by one. -/
def Obligations.StepMatchesSpecFunctions : Prop :=
  ∀ (s : State) (i : Inputs) (rest : List Inputs), s.upcoming = i :: rest →
    ∃ t, step s = .next t ∧ t.enc = encStep s.params i ∧ t.dec = decStep s.params i ∧
      t.errTransport = i.tpErr % 2 ^ s.params.tpw ∧
      (t.enc.errKind && t.enc.errRange) = false ∧
      t.dec.stValid.toNat + t.dec.angValid.toNat + t.dec.errMalformed.toNat = i.rxValid.toNat ∧
      t.params = s.params ∧ t.inp = i ∧ t.upcoming = rest

/-- The outputs of a run are the spec's functions of the inputs presented, instant by instant and in order
(10_state.md R21, 20_memory.md R64). -/
def Obligations.RunMatchesSpecFunctions : Prop :=
  ∀ (n : Nat) (s : State), n ≤ s.upcoming.length →
    (trace n s).map State.outputs = (s.upcoming.take n).map (outputsOf s.params)

/-- 43_dispatcher.md R188: the sends of a run are, in order, one for each legal command that is not withheld, and no
other; no transport failure changes them. -/
def Obligations.SendsOncePerLegalCommandInOrder : Prop :=
  ∀ (n : Nat) (s : State), n ≤ s.upcoming.length →
    sends (trace n s) = (s.upcoming.take n).filterMap (sendOf s.params)

/-- 60_exceptions.md R222: `cmd_valid = 1` and a kind above 8 raises `IllegalKind` and sends nothing, whatever the
operand ports carry. -/
def Obligations.IllegalKindRaisesItsFlagAlone : Prop :=
  ∀ (s : State) (i : Inputs) (rest : List Inputs), s.upcoming = i :: rest →
    i.cmdValid = true → 8 < i.cmdKind.toNat →
    ∃ t, step s = .next t ∧ t.enc = illegalKindOutputs

/-- 44_decoder.md R196, 60_exceptions.md R224: a received length other than 8 raises `MalformedFrame`, all other decoder
outputs 0, for both shapes and every content. -/
def Obligations.MalformedFrameRaisesItsFlagAlone : Prop :=
  (∀ (s : State) (i : Inputs) (rest : List Inputs), s.upcoming = i :: rest →
    i.rxValid = true → i.rxLen ≠ 8 → ∃ t, step s = .next t ∧ t.dec = malformedOutputs) ∧
  (∀ (len : Nat) (data other : FrameWord) (s : State), len ≠ 8 →
    exec (.motorStatus len data) s = exec (.multiTurnAngle len other) s)

/-- 60_exceptions.md R226: `err_transport` is the low `TPW` bits of `tp_err`, bit by bit, and `tp_err` changes nothing
else. -/
def Obligations.TransportFailurePassesThrough : Prop :=
  (∀ (s : State) (i : Inputs) (rest : List Inputs), s.upcoming = i :: rest →
    ∃ t, step s = .next t ∧
      ∀ k, t.errTransport.testBit k = (decide (k < s.params.tpw) && i.tpErr.testBit k)) ∧
  (∀ (s s' t t' : State) (i : Inputs) (v : Nat) (rest : List Inputs), s.upcoming = i :: rest →
    s' = { s with upcoming := { i with tpErr := v } :: rest } → step s = .next t → step s' = .next t' →
    t'.enc = t.enc ∧ t'.dec = t.dec ∧ t'.tx = t.tx ∧ t'.rx = t.rx) ∧
  Config.defaults.tpw = 1

/-- 70_reset_and_hazards.md R251: the outputs are always the function of the inputs (R190, R207); while the host
presents no transaction they are idle and `err_transport` follows `tp_err`; the state after reset has those outputs. -/
def Obligations.IdleHostGivesIdleOutputs : Prop :=
  (∀ (s : State) (i : Inputs) (rest : List Inputs), s.upcoming = i :: rest →
    ∃ t, step s = .next t ∧ t.outputs = outputsOf s.params i) ∧
  (∀ (s : State) (i : Inputs) (rest : List Inputs), s.upcoming = i :: rest →
    i.cmdValid = false → i.rxValid = false →
    ∃ t, step s = .next t ∧ t.errTransport = i.tpErr % 2 ^ s.params.tpw ∧
      t.enc = { txValid := false, txId := 0x0141, txData := 0, errKind := false, errRange := false } ∧
      t.dec = { stValid := false, stTemp := 0, stTorque := 0, stSpeed := 0, stEnc := 0,
                angValid := false, angDeg := 0, rxOpcode := 0, errMalformed := false }) ∧
  State.reset.outputs =
    { enc := { txValid := false, txId := 0x0141, txData := 0, errKind := false, errRange := false }
      dec := { stValid := false, stTemp := 0, stTorque := 0, stSpeed := 0, stEnc := 0,
               angValid := false, angDeg := 0, rxOpcode := 0, errMalformed := false }
      errTransport := State.reset.inp.tpErr }

/-- THE MODEL'S CHOICE (entry 2): when the host's listing is at an end, a step is an instant without a transaction and
without a transport failure; the ports that are not read then are 0 (entry 5), and both frame spaces are empty
(entry 9). -/
def Obligations.EmptyListingStepsIdle : Prop :=
  ∀ s : State, s.upcoming = [] →
    step s = .next { s with
      inp := Inputs.idle, tx := [], rx := [], enc := EncoderOutputs.idle, dec := DecoderOutputs.idle,
      errTransport := 0 }

/-! ### Independence -/

/-- 10_state.md R33: the encoder outputs depend on nothing but the parameters and the encoder-side ports the presented
kind reads, the decoder outputs on nothing but the parameters and the decoder-side ports that are read, `err_transport` on nothing but `tp_err`; in particular on
no earlier transaction and not on the other path. -/
def Obligations.UnreadInputsDoNotMatter : Prop :=
  ∀ (s s' t t' : State) (i j : Inputs) (rest rest' : List Inputs), s.params = s'.params →
    s.upcoming = i :: rest → s'.upcoming = j :: rest' → step s = .next t → step s' = .next t' →
    (sameCommandRead i j → t.enc = t'.enc) ∧ (sameFrameRead i j → t.dec = t'.dec) ∧
    (i.tpErr = j.tpErr → t.errTransport = t'.errTransport)

/-- 10_state.md R21: the same inputs under the same parameters give the same instant, whatever was presented before:
every output, and both frame spaces. -/
def Obligations.NoStateBetweenTransactions : Prop :=
  ∀ (s s' t t' : State) (i : Inputs) (rest rest' : List Inputs), s.params = s'.params →
    s.upcoming = i :: rest → s'.upcoming = i :: rest' → step s = .next t → step s' = .next t' →
    t'.outputs = t.outputs ∧ t'.tx = t.tx ∧ t'.rx = t.rx

/-- An encode and a decode operation of the same instant commute (70_reset_and_hazards.md R254, 20_memory.md R64): the
order in which the model runs them (entry 11) cannot be observed. -/
def Obligations.EncodeAndDecodeCommute : Prop :=
  ∀ (c d : Instr) (s : State), isCommand c = true → isCommand d = false →
    andThen (exec c s) (exec d) = andThen (exec d s) (exec c)

/-! ### The invariant -/

/-- Every step keeps the invariant (canonical frame spaces, `tx_id` constant, zero data under a zero valid flag, flags
exclusive and answering their transaction, `err_transport = tp_err`). -/
def Obligations.EveryStepKeepsInv : Prop :=
  ∀ s t : State, s.Inv → step s = .next t → t.Inv

/-- The state after reset meets the invariant. -/
def Obligations.ResetMeetsInv : Prop := State.reset.Inv

/-! ### Encodings -/

/-- The ports that present a well-formed instruction decode to it, every operand at every value of its type
(30_encoding.md R86, R87, R97). -/
def Obligations.DecodeInvertsEncodeOnPorts : Prop :=
  ∀ i : Instr, i.wellFormed = true → decode (encode i) = .ok i

/-- Every transaction names a well-formed instruction, but for the seven illegal kinds, which are rejected by name
(30_encoding.md R86, R91, R97). -/
def Obligations.PortsNameWellFormedInstruction : Prop :=
  (∀ d : CommandDescriptor, d.kind.toNat ≤ 8 → ∃ i, decode (.command d) = .ok i ∧ i.wellFormed = true) ∧
  (∀ d : CommandDescriptor, 8 < d.kind.toNat → decode (.command d) = .error (.illegalKind d.kind)) ∧
  (∀ r : ReceivedFrame, ∃ i, decode (.received r) = .ok i ∧ i.wellFormed = true)

/-- The frame of a well-formed command in range reads back as the command by the rows of the table, and a received frame
with the expected echo reads as its shape's operation (30_encoding.md R81, R82, R83, R96). -/
def Obligations.DecodeInvertsEncodeOnFrames : Prop :=
  (∀ i : Instr, i.wellFormed = true → isCommand i = true → operandsOutOfBounds i = false →
    decodeFrame .tx (encodeFrame i) = .ok i) ∧
  (∀ f : FrameWord, f.extractLsb' 0 8 = 0x9C → decodeFrame .rx f = .ok (.motorStatus 8 f)) ∧
  (∀ f : FrameWord, f.extractLsb' 0 8 = 0x92 → decodeFrame .rx f = .ok (.multiTurnAngle 8 f))

/-- What goes on the wire determines the command: a frame sent without `err_range` reads back, by the rows of the table,
as the very command that was executed. -/
def Obligations.SentFrameReadsBackAsTheCommand : Prop :=
  ∀ (i : Instr) (s t : State), i.wellFormed = true → isCommand i = true → exec i s = .next t →
    t.enc.txValid = true → t.enc.errRange = false → decodeFrame .tx t.enc.txData = .ok i

/-- No frame is an instance of two rows of one direction (30_encoding.md R89, R96). -/
def Obligations.TableRowsOfOnePathAreDisjoint : Prop :=
  ∀ (p : Path) (f : FrameWord) (o o' : Operation), isInstance p f o = true → isInstance p f o' = true → o = o'

/-- Frames of the spec's worked examples read as what they stand for (42_encoder.md R151, R153, R157; 44_decoder.md
R199, R205). -/
def Obligations.ExampleFramesDecodeRight : Prop :=
  decodeFrame .tx 0x1234000000000091 = .ok (.encoderOffset 0x1234) ∧
  decodeFrame .tx 0x00004650000000A2 = .ok (.speedSetpoint 30) ∧
  decodeFrame .tx 0x00002328465000A6 = .ok (.positionCtrl4 90 30 .clockwise) ∧
  decodeFrame .tx 0x0000FFDC000001A5 = .ok (.positionCtrl3 655 .counterclockwise) ∧
  decodeFrame .rx 0x010000640010199C = .ok (.motorStatus 8 0x010000640010199C) ∧
  decodeFrame .rx 0x0000000000232892 = .ok (.multiTurnAngle 8 0x0000000000232892)

/-- THE MODEL'S INTERFACE (entries 6, 7): a table word that decodes, decodes to a well-formed instruction, and presented
by `withFetchWord` it is what the next step runs. -/
def Obligations.FetchWordRunsTheTableWord : Prop :=
  ∀ (s : State) (nbits w : Nat) (i : Instr), decodeTableWord nbits w = some i →
    i.wellFormed = true ∧ step (s.withFetchWord nbits w) = exec i (s.withFetchWord nbits w).sample

/-! ### Scaling and arithmetic -/

/-- 40_scaling.md R112: the division by 60 is exact and the unit is `600 * rpm`, in both values of `DIV_MODE`. -/
def Obligations.RpmScaleIsExact : Prop :=
  ∀ (mode : Config.DivMode) (rpm : Int),
    rpm * 360 % 60 = 0 ∧ idiv mode (rpm * 360) 60 = 6 * rpm ∧ rpmToCdps mode rpm = 600 * rpm

/-- 40_scaling.md R111 with 00_scope.md R12: truncation rounds toward zero, floor toward minus infinity, and they differ,
by one, exactly on a negative dividend that is no multiple of the divisor; the default is truncation. -/
def Obligations.RoundingModesDifferByOneOnNegatives : Prop :=
  Config.defaults.divMode = .trunc ∧
  ∀ a b : Int, 0 < b →
    idiv .trunc a b = (if 0 ≤ a then a / b else -(-a / b)) ∧
    idiv .floor a b = a / b ∧
    idiv .floor a b = (if a < 0 ∧ ¬b ∣ a then idiv .trunc a b - 1 else idiv .trunc a b)

/-- 40_scaling.md R115: wire speed to rpm is one sixth of the raw value in the same rounding, and always fits 16 signed
bits. -/
def Obligations.WireSpeedIsOneSixth : Prop :=
  ∀ (mode : Config.DivMode) (raw : BitVec 16),
    let rpm := wireToRpm mode raw.toInt
    rpm = idiv mode (raw.toInt * 60) 360 ∧ rpm = idiv mode raw.toInt 6 ∧
    (mode = .trunc → -5461 ≤ rpm) ∧ -5462 ≤ rpm ∧ rpm ≤ 5461 ∧ (trunc 16 rpm).toInt = rpm

/-- 44_decoder.md R204: whole degrees are the accumulator divided by 100, and always fit 64 signed bits. -/
def Obligations.AngleInDegreesAlwaysFits : Prop :=
  ∀ (ext : Config.AngleExt) (mode : Config.DivMode) (a : BitVec 56),
    let deg := cdegToDeg mode (extendAngle ext a)
    deg = idiv mode (extendAngle ext a) 100 ∧ fitsS deg 64 = true ∧ (trunc 64 deg).toInt = deg

/-- 44_decoder.md R203: the three readings of the 56 bits, their ranges, their agreement where bit 55 is clear, and
negative zero; the default is sign extension. -/
def Obligations.AngleExtensions : Prop :=
  Config.defaults.angleExt = .sext56 ∧
  ∀ a : BitVec 56,
    (extendAngle .sext56 a = a.toInt ∧ -(2 ^ 55) ≤ extendAngle .sext56 a ∧ extendAngle .sext56 a ≤ 2 ^ 55 - 1) ∧
    (extendAngle .zext56 a = a.toNat ∧ 0 ≤ extendAngle .zext56 a ∧ extendAngle .zext56 a ≤ 2 ^ 56 - 1) ∧
    (extendAngle .signMag56 a = (-1) ^ a.msb.toNat * ((a.toNat % 2 ^ 55 : Nat) : Int) ∧
      -(2 ^ 55 - 1) ≤ extendAngle .signMag56 a ∧ extendAngle .signMag56 a ≤ 2 ^ 55 - 1) ∧
    (a.msb = false → extendAngle .sext56 a = extendAngle .zext56 a ∧
      extendAngle .zext56 a = extendAngle .signMag56 a) ∧
    (a = 0x80000000000000 → extendAngle .signMag56 a = 0)

/-- 40_scaling.md R118: a field of N bits read back equals the converted value iff the value fits, and otherwise differs
from it by the one multiple of `2^N` that brings it into the field's range. -/
def Obligations.WrapLaw : Prop :=
  ∀ (n : Nat) (c : Int), 1 ≤ n →
    ((trunc n c).toInt = c ↔ fitsS c n = true) ∧
    (((trunc n c).toNat : Int) = c ↔ fitsU c n = true) ∧
    (∃! k : Int, -(2 ^ (n - 1)) ≤ c - k * 2 ^ n ∧ c - k * 2 ^ n ≤ 2 ^ (n - 1) - 1) ∧
    (∀ k : Int, -(2 ^ (n - 1)) ≤ c - k * 2 ^ n → c - k * 2 ^ n ≤ 2 ^ (n - 1) - 1 →
      (trunc n c).toInt = c - k * 2 ^ n) ∧
    (∃! k : Int, 0 ≤ c - k * 2 ^ n ∧ c - k * 2 ^ n ≤ 2 ^ n - 1) ∧
    (∀ k : Int, 0 ≤ c - k * 2 ^ n → c - k * 2 ^ n ≤ 2 ^ n - 1 → ((trunc n c).toNat : Int) = c - k * 2 ^ n)

/-- 40_scaling.md R119: the round trips of speed (a), of speed through the command scaling (b) and of the angle (c), with
their exact bounds, under every parameter. -/
def Obligations.RoundTripLaws : Prop :=
  (∀ (mode : Config.DivMode) (r : Int), -5461 ≤ r → r ≤ 5461 →
    fitsS (6 * r) 16 = true ∧ wireToRpm mode (6 * r) = r ∧
    wireToRpm mode (idiv mode (rpmToCdps mode r) 100) = r) ∧
  (∀ (mode : Config.DivMode) (d : Int), -360287970189639 ≤ d → d ≤ 360287970189639 →
    cdegToDeg mode (degToCdeg d) = d ∧ fitsS (100 * d) 56 = true ∧
    cdegToDeg mode (extendAngle .sext56 (trunc 56 (100 * d))) = d ∧
    cdegToDeg mode (extendAngle .signMag56 (signMagnitude (100 * d))) = d) ∧
  (2 ^ 55 - 1 : Int) < 100 * 360287970189640 ∧
  (∀ (mode : Config.DivMode) (d : Int), 0 ≤ d → d ≤ 720575940379279 →
    cdegToDeg mode (extendAngle .zext56 (trunc 56 (100 * d))) = d) ∧
  (∀ (mode : Config.DivMode) (d : Int), d < 0 →
    cdegToDeg mode (extendAngle .zext56 (trunc 56 (100 * d))) ≠ d)

/-! ### Byte order -/

/-- 20_memory.md R55: byte i of a frame is bits `8*i+7 : 8*i` of the port, in both directions, the port value is the sum
of the bytes at their weights, and a little-endian field is a slice of the port value. -/
def Obligations.FramePortsAreLittleEndian : Prop :=
  (∀ (f : FrameWord) (a : Nat), a < 8 → byteAt (frameOfPort f) a = f.extractLsb' (8 * a) 8) ∧
  (∀ (m : Memory) (a : Nat), a < 8 → (portOfFrame m).extractLsb' (8 * a) 8 = byteAt m a) ∧
  (∀ f : FrameWord, portOfFrame (frameOfPort f) = f) ∧
  (∀ m : Memory, m.wf = true → frameOfPort (portOfFrame m) = m) ∧
  (∀ m : Memory, (portOfFrame m).toNat = ∑ i ∈ Finset.range 8, (byteAt m i).toNat * 2 ^ (8 * i)) ∧
  (∀ (f : FrameWord) (a n : Nat), a + n ≤ 8 →
    memRead (frameOfPort f) a n = .ok (f.extractLsb' (8 * a) (8 * n)).toNat)

/-- 41_serializer.md R138: what a serializer wrote reads back as the value iff the value fits, and the bytes depend on the
value modulo the field only. -/
def Obligations.SerializerAndDeserializerAreInverse : Prop :=
  (∀ (m : Memory) (addr : Nat) (c : Int), m.wf = true → addr + 2 ≤ 8 →
    ∃ m' u v, ser16 addr c m = .ok m' ∧ des16u addr m' = .ok u ∧ des16s addr m' = .ok v ∧
      (u = c ↔ fitsU c 16 = true) ∧ (v = c ↔ fitsS c 16 = true)) ∧
  (∀ (m : Memory) (addr : Nat) (c : Int), m.wf = true → addr + 4 ≤ 8 →
    ∃ m' v, ser32 addr c m = .ok m' ∧ memRead m' addr 4 = .ok v ∧
      ((BitVec.ofNat 32 v).toInt = c ↔ fitsS c 32 = true)) ∧
  (∀ (m : Memory) (addr : Nat) (c c' : Int),
    (c % 2 ^ 16 = c' % 2 ^ 16 → ser16 addr c m = ser16 addr c' m) ∧
    (c % 2 ^ 32 = c' % 2 ^ 32 → ser32 addr c m = ser32 addr c' m))
end

