-- ==== Sys2Proof/Laws/Memory.lean ====
section
/-! SUPPORT. The laws of a frame space: read after write, the canonical form kept by every operation, equality of
canonical frame spaces by their bytes, and what the two access primitives answer (spec/00_scope.md R13). -/

namespace Sys2Proof.Machine

@[simp] theorem byteAt_nil (a : Nat) : byteAt [] a = 0 := rfl

theorem wfFrom_mono {lo lo' : Nat} {m : Memory} (h : Memory.wfFrom lo m = true) (hl : lo' ≤ lo) :
    Memory.wfFrom lo' m = true := by
  cases m with
  | nil => rfl
  | cons c rest =>
    obtain ⟨a, v⟩ := c
    simp only [Memory.wfFrom, Bool.and_eq_true, decide_eq_true_eq] at h ⊢
    exact ⟨⟨⟨by omega, h.1.1.2⟩, h.1.2⟩, h.2⟩

/-- Below its first address a canonical frame space reads 0. -/
theorem byteAt_below {lo a : Nat} {m : Memory} (h : Memory.wfFrom lo m = true) (ha : a < lo) : byteAt m a = 0 := by
  induction m generalizing lo with
  | nil => rfl
  | cons c rest ih =>
    obtain ⟨b, v⟩ := c
    simp only [Memory.wfFrom, Bool.and_eq_true, decide_eq_true_eq] at h
    have hb : b ≠ a := by omega
    simp only [byteAt, hb, if_false]
    exact ih h.2 (by omega)

/-- Read after write: the address written reads as the byte written, every other address as before. -/
theorem byteAt_setByte_from {lo : Nat} {m : Memory} (h : Memory.wfFrom lo m = true) (a b : Nat) (v : Byte) :
    byteAt (setByte m a v) b = if a = b then v else byteAt m b := by
  induction m generalizing lo with
  | nil =>
    by_cases hv : v = 0
    · simp [setByte, hv]
    · simp only [setByte, if_neg hv, byteAt]
  | cons c rest ih =>
    obtain ⟨k, w⟩ := c
    simp only [Memory.wfFrom, Bool.and_eq_true, decide_eq_true_eq] at h
    obtain ⟨⟨⟨hlo, hk⟩, hw⟩, hrest⟩ := h
    simp only [setByte]
    split
    · -- the new address lies below the first entry
      rename_i hlt
      by_cases hv : v = 0
      · simp only [hv, if_true]
        by_cases hab : a = b
        · subst hab
          have hka : k ≠ a := by omega
          simp only [byteAt, hka, if_false, if_true]
          exact byteAt_below hrest (by omega)
        · simp [hab]
      · simp only [if_neg hv, byteAt]
    · split
      · -- the new address is the first entry's
        rename_i _ heq
        subst heq
        by_cases hv : v = 0
        · simp only [hv, if_true]
          by_cases hab : a = b
          · subst hab
            simpa using byteAt_below hrest (by omega)
          · simp [hab, byteAt]
        · by_cases hab : a = b <;> simp only [if_neg hv, byteAt, hab, if_true, if_false]
      · -- the new address lies above it
        rename_i hge hne
        simp only [byteAt]
        by_cases hkb : k = b
        · subst hkb
          simp [hne]
        · simp only [hkb, if_false]
          exact ih hrest

theorem byteAt_setByte {m : Memory} (h : m.wf = true) (a b : Nat) (v : Byte) :
    byteAt (setByte m a v) b = if a = b then v else byteAt m b :=
  byteAt_setByte_from h a b v

theorem setByte_wfFrom {lo : Nat} {m : Memory} (h : Memory.wfFrom lo m = true) {a : Nat} (hlo : lo ≤ a)
    (ha : a < Config.frameLen) (v : Byte) : Memory.wfFrom lo (setByte m a v) = true := by
  induction m generalizing lo with
  | nil =>
    by_cases hv : v = 0
    · simp [setByte, hv, Memory.wfFrom]
    · simp only [setByte, if_neg hv, Memory.wfFrom, Bool.and_eq_true, decide_eq_true_eq, Bool.and_true]
      exact ⟨⟨hlo, ha⟩, hv⟩
  | cons c rest ih =>
    obtain ⟨k, w⟩ := c
    have h' := h
    simp only [Memory.wfFrom, Bool.and_eq_true, decide_eq_true_eq] at h
    obtain ⟨⟨⟨hk0, hk⟩, hw⟩, hrest⟩ := h
    simp only [setByte]
    split
    · by_cases hv : v = 0
      · simpa only [hv, if_true] using h'
      · simp only [hv, if_false, Memory.wfFrom, Bool.and_eq_true, decide_eq_true_eq]
        exact ⟨⟨⟨hlo, ha⟩, hv⟩, ⟨⟨by omega, hk⟩, hw⟩, hrest⟩
    · split
      · rename_i _ heq
        subst heq
        by_cases hv : v = 0
        · simp only [hv, if_true]
          exact wfFrom_mono hrest (by omega)
        · simp only [hv, if_false, Memory.wfFrom, Bool.and_eq_true, decide_eq_true_eq]
          exact ⟨⟨⟨hk0, hk⟩, hv⟩, hrest⟩
      · rename_i hge hne
        simp only [Memory.wfFrom, Bool.and_eq_true, decide_eq_true_eq]
        exact ⟨⟨⟨hk0, hk⟩, hw⟩, ih hrest (by omega)⟩

/-- Writing a byte inside the frame keeps the canonical form. -/
theorem setByte_wf {m : Memory} (h : m.wf = true) {a : Nat} (ha : a < Config.frameLen) (v : Byte) :
    (setByte m a v).wf = true :=
  setByte_wfFrom h (Nat.zero_le _) ha v

/-- Writing bytes inside the frame keeps the canonical form. -/
theorem setBytes_wf {m : Memory} (h : m.wf = true) {n a : Nat} (ha : a + n ≤ Config.frameLen) (v : Nat) :
    (setBytes m a v n).wf = true := by
  induction n generalizing m a v with
  | zero => exact h
  | succ n ih => exact ih (setByte_wf h (by omega) _) (by omega) _

/-- What every byte reads as after a write of `n` bytes: the value's bytes, low byte at the lowest address, and
elsewhere what it read before (20_memory.md R54, R56). -/
theorem byteAt_setBytes {m : Memory} (h : m.wf = true) {n a : Nat} (ha : a + n ≤ Config.frameLen) (v b : Nat) :
    byteAt (setBytes m a v n) b =
      if a ≤ b ∧ b < a + n then BitVec.ofNat 8 (v / 256 ^ (b - a)) else byteAt m b := by
  induction n generalizing m a v with
  | zero =>
    have hn : ¬(a ≤ b ∧ b < a + 0) := by omega
    simp only [setBytes, hn, if_false]
  | succ n ih =>
    have hw := setByte_wf h (a := a) (by omega) (BitVec.ofNat 8 v)
    rw [setBytes, ih hw (by omega), byteAt_setByte h]
    by_cases hab : a = b
    · subst hab
      have h1 : ¬(a + 1 ≤ a ∧ a < a + 1 + n) := by omega
      have h2 : a ≤ a ∧ a < a + (n + 1) := by omega
      rw [if_neg h1, if_pos rfl, if_pos h2, Nat.sub_self, Nat.pow_zero, Nat.div_one]
    · by_cases hin : a + 1 ≤ b ∧ b < a + 1 + n
      · have h2 : a ≤ b ∧ b < a + (n + 1) := by omega
        have he : b - a = (b - (a + 1)) + 1 := by omega
        rw [if_pos hin, if_pos h2, he, Nat.pow_succ, Nat.mul_comm, Nat.div_div_eq_div_mul]
      · have h2 : ¬(a ≤ b ∧ b < a + (n + 1)) := by omega
        rw [if_neg hin, if_neg hab, if_neg h2]

/-- Two canonical frame spaces with the same bytes are equal. -/
theorem wfFrom_ext {lo : Nat} {m m' : Memory} (h : Memory.wfFrom lo m = true) (h' : Memory.wfFrom lo m' = true)
    (hb : ∀ a, byteAt m a = byteAt m' a) : m = m' := by
  induction m generalizing lo m' with
  | nil =>
    cases m' with
    | nil => rfl
    | cons c rest =>
      obtain ⟨k, w⟩ := c
      simp only [Memory.wfFrom, Bool.and_eq_true, decide_eq_true_eq] at h'
      exact absurd (hb k).symm (by simpa [byteAt] using h'.1.2)
  | cons c rest ih =>
    obtain ⟨k, w⟩ := c
    cases m' with
    | nil =>
      simp only [Memory.wfFrom, Bool.and_eq_true, decide_eq_true_eq] at h
      exact absurd (hb k) (by simpa [byteAt] using h.1.2)
    | cons c' rest' =>
      obtain ⟨k', w'⟩ := c'
      simp only [Memory.wfFrom, Bool.and_eq_true, decide_eq_true_eq] at h h'
      obtain ⟨⟨⟨_, _⟩, hw⟩, hr⟩ := h
      obtain ⟨⟨⟨_, _⟩, hw'⟩, hr'⟩ := h'
      have hkk : k = k' := by
        rcases Nat.lt_trichotomy k k' with hlt | heq | hgt
        · have e := hb k
          have hne : k' ≠ k := by omega
          simp only [byteAt, if_true, hne, if_false, byteAt_below hr' (show k < k' + 1 by omega)] at e
          exact absurd e hw
        · exact heq
        · have e := hb k'
          have hne : k ≠ k' := by omega
          simp only [byteAt, if_true, hne, if_false, byteAt_below hr (show k' < k + 1 by omega)] at e
          exact absurd e.symm hw'
      subst hkk
      have hww : w = w' := by simpa [byteAt] using hb k
      subst hww
      have hrest : ∀ a, byteAt rest a = byteAt rest' a := by
        intro a
        by_cases hak : k = a
        · subst hak
          rw [byteAt_below hr (by omega), byteAt_below hr' (by omega)]
        · simpa [byteAt, hak] using hb a
      rw [ih hr hr' hrest]

theorem wf_ext {m m' : Memory} (h : m.wf = true) (h' : m'.wf = true) (hb : ∀ a, byteAt m a = byteAt m' a) : m = m' :=
  wfFrom_ext h h' hb

/-- Outside the frame a canonical frame space reads 0. -/
theorem byteAt_outside {m : Memory} (h : m.wf = true) {a : Nat} (ha : Config.frameLen ≤ a) : byteAt m a = 0 := by
  suffices H : ∀ lo, Memory.wfFrom lo m = true → byteAt m a = 0 from H 0 h
  clear h
  induction m with
  | nil => intro _ _; rfl
  | cons c rest ih =>
    obtain ⟨k, w⟩ := c
    intro lo h
    simp only [Memory.wfFrom, Bool.and_eq_true, decide_eq_true_eq] at h
    have hne : k ≠ a := by omega
    simp only [byteAt, hne, if_false]
    exact ih _ h.2

/-- `MemWrite` inside the frame answers the written space; outside it faults. -/
theorem memWrite_inside {m : Memory} {addr n v : Nat} (h : addr + n ≤ Config.frameLen) :
    memWrite m addr n v = .ok (setBytes m addr v n) := if_pos h

theorem memWrite_outside {m : Memory} {addr n v : Nat} (h : ¬addr + n ≤ Config.frameLen) :
    memWrite m addr n v = .error (.outsideFrame addr n) := if_neg h

theorem memWrite_wf {m m' : Memory} {addr n v : Nat} (hm : m.wf = true) (h : memWrite m addr n v = .ok m') :
    m'.wf = true := by
  unfold memWrite at h
  split at h
  · next hin =>
    cases h
    exact setBytes_wf hm hin v
  · cases h

/-- All that `MemWrite` can do: inside the frame, the value's bytes at their addresses and nothing else. -/
theorem memWrite_byteAt {m m' : Memory} {addr n v : Nat} (hm : m.wf = true) (h : memWrite m addr n v = .ok m')
    (b : Nat) :
    byteAt m' b = if addr ≤ b ∧ b < addr + n then BitVec.ofNat 8 (v / 256 ^ (b - addr)) else byteAt m b := by
  unfold memWrite at h
  split at h
  · next hin =>
    cases h
    exact byteAt_setBytes hm hin v b
  · cases h

theorem memRead_inside {m : Memory} {addr n : Nat} (h : addr + n ≤ Config.frameLen) :
    memRead m addr n = .ok (getBytes m addr n) := if_pos h

theorem memRead_outside {m : Memory} {addr n : Nat} (h : ¬addr + n ≤ Config.frameLen) :
    memRead m addr n = .error (.outsideFrame addr n) := if_neg h

/-- A read depends on the bytes it covers only. -/
theorem getBytes_congr {m m' : Memory} {a n : Nat} (h : ∀ b, a ≤ b → b < a + n → byteAt m b = byteAt m' b) :
    getBytes m a n = getBytes m' a n := by
  induction n generalizing a with
  | zero => rfl
  | succ n ih =>
    rw [getBytes, getBytes, h a (by omega) (by omega), ih (fun b h1 h2 => h b (by omega) (by omega))]

theorem getBytes_lt (m : Memory) (a n : Nat) : getBytes m a n < 256 ^ n := by
  induction n generalizing a with
  | zero => simp [getBytes]
  | succ n ih =>
    have h1 := ih (a + 1)
    have h2 : uint (byteAt m a) < 256 := (byteAt m a).isLt
    rw [getBytes, Nat.pow_succ]
    omega

/-- The received frame fills a canonical space. -/
theorem frameOfPort_wf (f : FrameWord) : (frameOfPort f).wf = true :=
  setBytes_wf (m := []) rfl (by decide) _

end Sys2Proof.Machine
end

