-- ==== Sys2Proof/Laws/State.lean ====
section
/-! SUPPORT. One lemma per field per update of State, true by rfl, so that no proof unfolds a record update. -/

namespace Sys2Proof.Machine

/-! ### The start of a sampling instant -/

@[simp] theorem sample_params (s : State) :
    (s.sample).params = s.params := rfl

@[simp] theorem sample_inp (s : State) :
    (s.sample).inp = s.upcoming.headD Inputs.idle := rfl

@[simp] theorem sample_tx (s : State) :
    (s.sample).tx = [] := rfl

@[simp] theorem sample_rx (s : State) :
    (s.sample).rx = [] := rfl

@[simp] theorem sample_enc (s : State) :
    (s.sample).enc = EncoderOutputs.idle := rfl

@[simp] theorem sample_dec (s : State) :
    (s.sample).dec = DecoderOutputs.idle := rfl

@[simp] theorem sample_errTransport (s : State) :
    (s.sample).errTransport = transportValue s.params (s.upcoming.headD Inputs.idle) := rfl

@[simp] theorem sample_upcoming (s : State) :
    (s.sample).upcoming = s.upcoming.tail := rfl

/-! ### Port values due -/

@[simp] theorem present_params (s : State) (i : Inputs) :
    (s.present i).params = s.params := rfl

@[simp] theorem present_inp (s : State) (i : Inputs) :
    (s.present i).inp = s.inp := rfl

@[simp] theorem present_tx (s : State) (i : Inputs) :
    (s.present i).tx = s.tx := rfl

@[simp] theorem present_rx (s : State) (i : Inputs) :
    (s.present i).rx = s.rx := rfl

@[simp] theorem present_enc (s : State) (i : Inputs) :
    (s.present i).enc = s.enc := rfl

@[simp] theorem present_dec (s : State) (i : Inputs) :
    (s.present i).dec = s.dec := rfl

@[simp] theorem present_errTransport (s : State) (i : Inputs) :
    (s.present i).errTransport = s.errTransport := rfl

@[simp] theorem present_upcoming (s : State) (i : Inputs) :
    (s.present i).upcoming = i :: s.upcoming := rfl

/-! ### Error conditions -/

@[simp] theorem raise_malformed_params (s : State) (len : Nat) :
    (s.raise (.malformedFrame len)).params = s.params := rfl

@[simp] theorem raise_malformed_inp (s : State) (len : Nat) :
    (s.raise (.malformedFrame len)).inp = s.inp := rfl

@[simp] theorem raise_malformed_tx (s : State) (len : Nat) :
    (s.raise (.malformedFrame len)).tx = s.tx := rfl

@[simp] theorem raise_malformed_rx (s : State) (len : Nat) :
    (s.raise (.malformedFrame len)).rx = s.rx := rfl

@[simp] theorem raise_malformed_enc (s : State) (len : Nat) :
    (s.raise (.malformedFrame len)).enc = s.enc := rfl

@[simp] theorem raise_malformed_dec (s : State) (len : Nat) :
    (s.raise (.malformedFrame len)).dec = { DecoderOutputs.idle with errMalformed := true } := rfl

@[simp] theorem raise_malformed_errTransport (s : State) (len : Nat) :
    (s.raise (.malformedFrame len)).errTransport = s.errTransport := rfl

@[simp] theorem raise_malformed_upcoming (s : State) (len : Nat) :
    (s.raise (.malformedFrame len)).upcoming = s.upcoming := rfl

@[simp] theorem raise_outOfRange_params (s : State) :
    (s.raise .outOfRange).params = s.params := rfl

@[simp] theorem raise_outOfRange_inp (s : State) :
    (s.raise .outOfRange).inp = s.inp := rfl

@[simp] theorem raise_outOfRange_tx (s : State) :
    (s.raise .outOfRange).tx = s.tx := rfl

@[simp] theorem raise_outOfRange_rx (s : State) :
    (s.raise .outOfRange).rx = s.rx := rfl

@[simp] theorem raise_outOfRange_enc (s : State) :
    (s.raise .outOfRange).enc = { s.enc with errKind := false, errRange := true } := rfl

@[simp] theorem raise_outOfRange_dec (s : State) :
    (s.raise .outOfRange).dec = s.dec := rfl

@[simp] theorem raise_outOfRange_errTransport (s : State) :
    (s.raise .outOfRange).errTransport = s.errTransport := rfl

@[simp] theorem raise_outOfRange_upcoming (s : State) :
    (s.raise .outOfRange).upcoming = s.upcoming := rfl

@[simp] theorem raise_transport_params (s : State) (v : Nat) :
    (s.raise (.transportFailure v)).params = s.params := rfl

@[simp] theorem raise_transport_inp (s : State) (v : Nat) :
    (s.raise (.transportFailure v)).inp = s.inp := rfl

@[simp] theorem raise_transport_tx (s : State) (v : Nat) :
    (s.raise (.transportFailure v)).tx = s.tx := rfl

@[simp] theorem raise_transport_rx (s : State) (v : Nat) :
    (s.raise (.transportFailure v)).rx = s.rx := rfl

@[simp] theorem raise_transport_enc (s : State) (v : Nat) :
    (s.raise (.transportFailure v)).enc = s.enc := rfl

@[simp] theorem raise_transport_dec (s : State) (v : Nat) :
    (s.raise (.transportFailure v)).dec = s.dec := rfl

@[simp] theorem raise_transport_errTransport (s : State) (v : Nat) :
    (s.raise (.transportFailure v)).errTransport = v := rfl

@[simp] theorem raise_transport_upcoming (s : State) (v : Nat) :
    (s.raise (.transportFailure v)).upcoming = s.upcoming := rfl

@[simp] theorem raise_illegalKind_params (s : State) :
    (s.raise .illegalKind).params = s.params := rfl

@[simp] theorem raise_illegalKind_inp (s : State) :
    (s.raise .illegalKind).inp = s.inp := rfl

@[simp] theorem raise_illegalKind_tx (s : State) :
    (s.raise .illegalKind).tx = s.tx := rfl

@[simp] theorem raise_illegalKind_rx (s : State) :
    (s.raise .illegalKind).rx = s.rx := rfl

@[simp] theorem raise_illegalKind_enc (s : State) :
    (s.raise .illegalKind).enc = { EncoderOutputs.idle with errKind := true } := rfl

@[simp] theorem raise_illegalKind_dec (s : State) :
    (s.raise .illegalKind).dec = s.dec := rfl

@[simp] theorem raise_illegalKind_errTransport (s : State) :
    (s.raise .illegalKind).errTransport = s.errTransport := rfl

@[simp] theorem raise_illegalKind_upcoming (s : State) :
    (s.raise .illegalKind).upcoming = s.upcoming := rfl

/-! ### Send, receive, emit -/

@[simp] theorem send_params (s : State) (frame : Memory) :
    (s.send frame).params = s.params := rfl

@[simp] theorem send_inp (s : State) (frame : Memory) :
    (s.send frame).inp = s.inp := rfl

@[simp] theorem send_tx (s : State) (frame : Memory) :
    (s.send frame).tx = s.tx := rfl

@[simp] theorem send_rx (s : State) (frame : Memory) :
    (s.send frame).rx = s.rx := rfl

@[simp] theorem send_enc (s : State) (frame : Memory) :
    (s.send frame).enc = { txValid := true, txId := Config.busId, txData := portOfFrame frame, errKind := false, errRange := false } := rfl

@[simp] theorem send_dec (s : State) (frame : Memory) :
    (s.send frame).dec = s.dec := rfl

@[simp] theorem send_errTransport (s : State) (frame : Memory) :
    (s.send frame).errTransport = s.errTransport := rfl

@[simp] theorem send_upcoming (s : State) (frame : Memory) :
    (s.send frame).upcoming = s.upcoming := rfl

@[simp] theorem receive_params (s : State) (data : FrameWord) :
    (s.receive data).params = s.params := rfl

@[simp] theorem receive_inp (s : State) (data : FrameWord) :
    (s.receive data).inp = s.inp := rfl

@[simp] theorem receive_tx (s : State) (data : FrameWord) :
    (s.receive data).tx = s.tx := rfl

@[simp] theorem receive_rx (s : State) (data : FrameWord) :
    (s.receive data).rx = frameOfPort data := rfl

@[simp] theorem receive_enc (s : State) (data : FrameWord) :
    (s.receive data).enc = s.enc := rfl

@[simp] theorem receive_dec (s : State) (data : FrameWord) :
    (s.receive data).dec = s.dec := rfl

@[simp] theorem receive_errTransport (s : State) (data : FrameWord) :
    (s.receive data).errTransport = s.errTransport := rfl

@[simp] theorem receive_upcoming (s : State) (data : FrameWord) :
    (s.receive data).upcoming = s.upcoming := rfl

@[simp] theorem emit_params (s : State) (record : DecoderOutputs) :
    (s.emit record).params = s.params := rfl

@[simp] theorem emit_inp (s : State) (record : DecoderOutputs) :
    (s.emit record).inp = s.inp := rfl

@[simp] theorem emit_tx (s : State) (record : DecoderOutputs) :
    (s.emit record).tx = s.tx := rfl

@[simp] theorem emit_rx (s : State) (record : DecoderOutputs) :
    (s.emit record).rx = s.rx := rfl

@[simp] theorem emit_enc (s : State) (record : DecoderOutputs) :
    (s.emit record).enc = s.enc := rfl

@[simp] theorem emit_dec (s : State) (record : DecoderOutputs) :
    (s.emit record).dec = record := rfl

@[simp] theorem emit_errTransport (s : State) (record : DecoderOutputs) :
    (s.emit record).errTransport = s.errTransport := rfl

@[simp] theorem emit_upcoming (s : State) (record : DecoderOutputs) :
    (s.emit record).upcoming = s.upcoming := rfl

end Sys2Proof.Machine
end

