-- ==== Sys2Proof/Laws/Ops.lean ====
section
/-! SUPPORT. For each shared operation and each meaning, one lemma that says all it can do, to be cited instead of
unfolding it. -/

namespace Sys2Proof.Machine

@[simp] theorem ok_bind {ε α β : Type} (a : α) (f : α → Except ε β) : (Except.ok a).bind f = f a := rfl

/-! ### Serializer and deserializer -/

theorem ser8_inside {m : Memory} {addr : Nat} (b : Byte) (h : addr + 1 ≤ Config.frameLen) :
    ser8 addr b m = .ok (setBytes m addr (uint b) 1) := memWrite_inside h

theorem ser16_inside {m : Memory} {addr : Nat} (c : Int) (h : addr + 2 ≤ Config.frameLen) :
    ser16 addr c m = .ok (setBytes m addr (uint (trunc 16 c)) 2) := memWrite_inside h

theorem ser32_inside {m : Memory} {addr : Nat} (c : Int) (h : addr + 4 ≤ Config.frameLen) :
    ser32 addr c m = .ok (setBytes m addr (uint (trunc 32 c)) 4) := memWrite_inside h

theorem des8s_inside {m : Memory} {addr : Nat} (h : addr + 1 ≤ Config.frameLen) :
    des8s addr m = .ok (sint (BitVec.ofNat 8 (getBytes m addr 1))) := by
  rw [des8s, memRead_inside h]; rfl

theorem des16s_inside {m : Memory} {addr : Nat} (h : addr + 2 ≤ Config.frameLen) :
    des16s addr m = .ok (sint (BitVec.ofNat 16 (getBytes m addr 2))) := by
  rw [des16s, memRead_inside h]; rfl

theorem des16u_inside {m : Memory} {addr : Nat} (h : addr + 2 ≤ Config.frameLen) :
    des16u addr m = .ok ((uint (BitVec.ofNat 16 (getBytes m addr 2)) : Nat) : Int) := by
  rw [des16u, memRead_inside h]; rfl

theorem des56_inside {m : Memory} {addr : Nat} (h : addr + 7 ≤ Config.frameLen) :
    des56 addr m = .ok (BitVec.ofNat 56 (getBytes m addr 7)) := by
  rw [des56, memRead_inside h]; rfl

/-! ### The dispatcher's hand-over -/

/-- The three things the hand-over can do. -/
theorem dispatch_cases (s : State) (frame : Memory) (b : Bool) :
    (b = false ∧ s.dispatch frame b = State.send { s with tx := frame } frame) ∨
    (b = true ∧ s.params.rangePolicy = .wrapSend ∧
      s.dispatch frame b = (State.send { s with tx := frame } frame).raise .outOfRange) ∨
    (b = true ∧ s.params.rangePolicy = .reject ∧
      s.dispatch frame b = State.raise { s with tx := frame, enc := EncoderOutputs.idle } .outOfRange) := by
  unfold State.dispatch
  cases b
  · exact .inl ⟨rfl, rfl⟩
  · cases h : s.params.rangePolicy
    · exact .inr (.inl ⟨rfl, rfl, rfl⟩)
    · exact .inr (.inr ⟨rfl, rfl, rfl⟩)

theorem dispatch_inRange (s : State) (frame : Memory) :
    s.dispatch frame false = { s with
      tx := frame
      enc := { txValid := true, txId := Config.busId, txData := portOfFrame frame, errKind := false,
               errRange := false } } := rfl

theorem dispatch_wrapped {s : State} (frame : Memory) (h : s.params.rangePolicy = .wrapSend) :
    s.dispatch frame true = { s with
      tx := frame
      enc := { txValid := true, txId := Config.busId, txData := portOfFrame frame, errKind := false,
               errRange := true } } := by
  unfold State.dispatch; rw [h]; rfl

theorem dispatch_withheld {s : State} (frame : Memory) (h : s.params.rangePolicy = .reject) :
    s.dispatch frame true = { s with
      tx := frame
      enc := { EncoderOutputs.idle with errRange := true } } := by
  unfold State.dispatch; rw [h]; rfl

@[simp] theorem dispatch_params (s : State) (m : Memory) (b : Bool) : (s.dispatch m b).params = s.params := by
  rcases dispatch_cases s m b with ⟨_, h⟩ | ⟨_, _, h⟩ | ⟨_, _, h⟩ <;> rw [h] <;> rfl

@[simp] theorem dispatch_inp (s : State) (m : Memory) (b : Bool) : (s.dispatch m b).inp = s.inp := by
  rcases dispatch_cases s m b with ⟨_, h⟩ | ⟨_, _, h⟩ | ⟨_, _, h⟩ <;> rw [h] <;> rfl

@[simp] theorem dispatch_tx (s : State) (m : Memory) (b : Bool) : (s.dispatch m b).tx = m := by
  rcases dispatch_cases s m b with ⟨_, h⟩ | ⟨_, _, h⟩ | ⟨_, _, h⟩ <;> rw [h] <;> rfl

@[simp] theorem dispatch_rx (s : State) (m : Memory) (b : Bool) : (s.dispatch m b).rx = s.rx := by
  rcases dispatch_cases s m b with ⟨_, h⟩ | ⟨_, _, h⟩ | ⟨_, _, h⟩ <;> rw [h] <;> rfl

@[simp] theorem dispatch_dec (s : State) (m : Memory) (b : Bool) : (s.dispatch m b).dec = s.dec := by
  rcases dispatch_cases s m b with ⟨_, h⟩ | ⟨_, _, h⟩ | ⟨_, _, h⟩ <;> rw [h] <;> rfl

@[simp] theorem dispatch_errTransport (s : State) (m : Memory) (b : Bool) :
    (s.dispatch m b).errTransport = s.errTransport := by
  rcases dispatch_cases s m b with ⟨_, h⟩ | ⟨_, _, h⟩ | ⟨_, _, h⟩ <;> rw [h] <;> rfl

@[simp] theorem dispatch_upcoming (s : State) (m : Memory) (b : Bool) : (s.dispatch m b).upcoming = s.upcoming := by
  rcases dispatch_cases s m b with ⟨_, h⟩ | ⟨_, _, h⟩ | ⟨_, _, h⟩ <;> rw [h] <;> rfl

/-! ### Encode operations -/

/-- An encode operation that goes on hands over the frame its fields build. -/
theorem encodeOp_next {opcode : Byte} {fields : Memory → Except Fault Memory} {scaled : List ScaledField}
    {s t : State} (h : encodeOp opcode fields scaled s = .next t) :
    ∃ frame, (ser8 0 opcode []).bind fields = .ok frame ∧ t = s.dispatch frame (rangeErr scaled) := by
  unfold encodeOp at h
  cases hb : (ser8 0 opcode []).bind fields with
  | ok frame =>
    rw [hb] at h
    cases h
    exact ⟨frame, rfl, rfl⟩
  | error e =>
    rw [hb] at h
    cases h

theorem encodeOp_ok {opcode : Byte} {fields : Memory → Except Fault Memory} {frame : Memory}
    (h : (ser8 0 opcode []).bind fields = .ok frame) (scaled : List ScaledField) (s : State) :
    encodeOp opcode fields scaled s = .next (s.dispatch frame (rangeErr scaled)) := by
  unfold encodeOp
  rw [h]
  rfl

/-- `TX` after `SER8(0, opcode)` (42_encoder.md R150). -/
theorem ser8_opcode (opcode : Byte) : ser8 0 opcode [] = .ok (setBytes [] 0 (uint opcode) 1) :=
  ser8_inside opcode (by decide)

theorem execEncoderOffset_eq (offset : Nat) (s : State) :
    execEncoderOffset offset s = .next (s.dispatch
      (setBytes (setBytes [] 0 (uint (0x91 : Byte)) 1) 6 (uint (trunc 16 offset)) 2) (rangeErr [])) :=
  encodeOp_ok (by rw [ser8_opcode]; exact ser16_inside _ (by decide)) _ _

theorem execTorqueSetpoint_eq (current : Int) (s : State) :
    execTorqueSetpoint current s = .next (s.dispatch
      (setBytes (setBytes [] 0 (uint (0xA1 : Byte)) 1) 4 (uint (trunc 16 current)) 2) (rangeErr [])) :=
  encodeOp_ok (by rw [ser8_opcode]; exact ser16_inside _ (by decide)) _ _

theorem execSpeedSetpoint_eq (rpm : Int) (s : State) :
    execSpeedSetpoint rpm s = .next (s.dispatch
      (setBytes (setBytes [] 0 (uint (0xA2 : Byte)) 1) 4 (uint (trunc 32 (rpmToCdps s.params.divMode rpm))) 4)
      (rangeErr [⟨rpmToCdps s.params.divMode rpm, 32, true⟩])) :=
  encodeOp_ok (by rw [ser8_opcode]; exact ser32_inside _ (by decide)) _ _

theorem execPositionCtrl1_eq (degrees : Int) (s : State) :
    execPositionCtrl1 degrees s = .next (s.dispatch
      (setBytes (setBytes [] 0 (uint (0xA3 : Byte)) 1) 4 (uint (trunc 32 (degToCdeg degrees))) 4)
      (rangeErr [⟨degToCdeg degrees, 32, true⟩])) :=
  encodeOp_ok (by rw [ser8_opcode]; exact ser32_inside _ (by decide)) _ _

theorem execPositionCtrl2_eq (limit : Nat) (degrees : Int) (s : State) :
    execPositionCtrl2 limit degrees s = .next (s.dispatch
      (setBytes (setBytes (setBytes [] 0 (uint (0xA4 : Byte)) 1)
        2 (uint (trunc 16 (rpmToCdps s.params.divMode limit))) 2) 4 (uint (trunc 32 (degToCdeg degrees))) 4)
      (rangeErr [⟨rpmToCdps s.params.divMode limit, 16, false⟩, ⟨degToCdeg degrees, 32, true⟩])) :=
  encodeOp_ok (by
    rw [ser8_opcode, ok_bind, ser16_inside _ (by decide)]
    exact ser32_inside _ (by decide)) _ _

theorem execPositionCtrl3_eq (degrees : Nat) (dir : Direction) (s : State) :
    execPositionCtrl3 degrees dir s = .next (s.dispatch
      (setBytes (setBytes (setBytes [] 0 (uint (0xA5 : Byte)) 1) 1 (uint (dirByte dir)) 1)
        4 (uint (trunc 16 (degToCdeg degrees))) 2)
      (rangeErr [⟨degToCdeg degrees, 16, false⟩])) :=
  encodeOp_ok (by
    rw [ser8_opcode, ok_bind, ser8_inside _ (by decide)]
    exact ser16_inside _ (by decide)) _ _

theorem execPositionCtrl4_eq (degrees limit : Nat) (dir : Direction) (s : State) :
    execPositionCtrl4 degrees limit dir s = .next (s.dispatch
      (setBytes (setBytes (setBytes (setBytes [] 0 (uint (0xA6 : Byte)) 1) 1 (uint (dirByte dir)) 1)
        2 (uint (trunc 16 (rpmToCdps s.params.divMode limit))) 2) 4 (uint (trunc 16 (degToCdeg degrees))) 2)
      (rangeErr [⟨rpmToCdps s.params.divMode limit, 16, false⟩, ⟨degToCdeg degrees, 16, false⟩])) :=
  encodeOp_ok (by
    rw [ser8_opcode, ok_bind, ser8_inside _ (by decide), ok_bind, ser16_inside _ (by decide)]
    exact ser16_inside _ (by decide)) _ _

theorem execQueryMotorStatus_eq (s : State) :
    execQueryMotorStatus s = .next (s.dispatch (setBytes [] 0 (uint (0x9C : Byte)) 1) (rangeErr [])) :=
  encodeOp_ok (by rw [ser8_opcode]; rfl) _ _

theorem execQueryMultiTurnAngle_eq (s : State) :
    execQueryMultiTurnAngle s = .next (s.dispatch (setBytes [] 0 (uint (0x92 : Byte)) 1) (rangeErr [])) :=
  encodeOp_ok (by rw [ser8_opcode]; rfl) _ _

/-! ### Decode operations -/

/-- A length other than 8 raises `MalformedFrame`, whatever the frame and the shape. -/
theorem decodeOp_malformed {len : Nat} (h : len ≠ Config.frameLen) (data : FrameWord)
    (record : Config.Params → Memory → Except Fault DecoderOutputs) (s : State) :
    decodeOp len data record s = .next (s.raise (.malformedFrame len)) := if_neg h

theorem decodeOp_eight (data : FrameWord) {record : Config.Params → Memory → Except Fault DecoderOutputs}
    {s : State} {out : DecoderOutputs} (h : record s.params (frameOfPort data) = .ok out) :
    decodeOp 8 data record s = .next ((s.receive data).emit out) := by
  change ofAccess (record s.params (frameOfPort data)) _ = _
  rw [h]
  rfl

/-- The `MotorStatus` record of a filled `RX`, every field by the bytes it reads. -/
theorem motorStatusRecord_eq (p : Config.Params) (m : Memory) :
    motorStatusRecord p m = .ok { DecoderOutputs.idle with
      stValid := true
      stTemp := trunc 8 (sint (BitVec.ofNat 8 (getBytes m 1 1)))
      stTorque := trunc 16 (sint (BitVec.ofNat 16 (getBytes m 2 2)))
      stSpeed := trunc 16 (wireToRpm p.divMode (sint (BitVec.ofNat 16 (getBytes m 4 2))))
      stEnc := trunc 16 ((uint (BitVec.ofNat 16 (getBytes m 6 2)) : Nat) : Int)
      rxOpcode := BitVec.ofNat 8 (getBytes m 0 1) } := by
  have he : echoOf m = .ok (BitVec.ofNat 8 (getBytes m 0 1)) := by
    rw [echoOf, memRead_inside (by decide)]; rfl
  rw [motorStatusRecord, he, des8s_inside (by decide), des16s_inside (by decide), des16s_inside (by decide),
    des16u_inside (by decide)]
  rfl

/-- The `MultiTurnAngle` record of a filled `RX`. -/
theorem multiTurnAngleRecord_eq (p : Config.Params) (m : Memory) :
    multiTurnAngleRecord p m = .ok { DecoderOutputs.idle with
      angValid := true
      angDeg := trunc 64 (cdegToDeg p.divMode (extendAngle p.angleExt (BitVec.ofNat 56 (getBytes m 1 7))))
      rxOpcode := BitVec.ofNat 8 (getBytes m 0 1) } := by
  have he : echoOf m = .ok (BitVec.ofNat 8 (getBytes m 0 1)) := by
    rw [echoOf, memRead_inside (by decide)]; rfl
  rw [multiTurnAngleRecord, he, des56_inside (by decide)]
  rfl

/-- A decode operation that goes on changes `RX` and the decoder outputs only. -/
theorem decodeOp_next {len : Nat} {data : FrameWord}
    {record : Config.Params → Memory → Except Fault DecoderOutputs} {s t : State}
    (h : decodeOp len data record s = .next t) :
    (len ≠ Config.frameLen ∧ t = s.raise (.malformedFrame len)) ∨
    (len = Config.frameLen ∧ ∃ out, record s.params (frameOfPort data) = .ok out ∧ t = (s.receive data).emit out) := by
  unfold decodeOp at h
  split at h
  · next hl =>
    refine .inr ⟨hl, ?_⟩
    change ofAccess (record s.params (frameOfPort data)) _ = _ at h
    cases hr : record s.params (frameOfPort data) with
    | ok out => rw [hr] at h; cases h; exact ⟨out, rfl, rfl⟩
    | error e => rw [hr] at h; cases h
  · next hl =>
    cases h
    exact .inl ⟨hl, rfl⟩

/-! ### Outcomes -/

@[simp] theorem andThen_next (s : State) (f : State → Result) : andThen (.next s) f = f s := rfl

@[simp] theorem andThen_fault (e : Fault) (f : State → Result) : andThen (.fault e) f = .fault e := rfl

@[simp] theorem andThen_refused (e : Refusal) (f : State → Result) : andThen (.refused e) f = .refused e := rfl

/-- What goes on after two parts went on after each. -/
theorem andThen_eq_next {r : Result} {f : State → Result} {t : State} (h : andThen r f = .next t) :
    ∃ u, r = .next u ∧ f u = .next t := by
  cases r with
  | next u => exact ⟨u, rfl, h⟩
  | fault e => cases h
  | refused e => cases h

/-! ### What an instruction can do -/

/-- The four ways an instruction goes on: a canonical frame handed over, `MalformedFrame`, a status record, an angle
record. -/
theorem exec_cases {i : Instr} {s t : State} (h : exec i s = .next t) :
    (∃ frame out, frame.wf = true ∧ t = s.dispatch frame out) ∨
    (∃ len, t = s.raise (.malformedFrame len)) ∨
    (∃ data out, motorStatusRecord s.params (frameOfPort data) = .ok out ∧ t = (s.receive data).emit out) ∨
    (∃ data out, multiTurnAngleRecord s.params (frameOfPort data) = .ok out ∧ t = (s.receive data).emit out) := by
  cases i
  case motorStatus len data =>
    rcases decodeOp_next h with ⟨_, rfl⟩ | ⟨_, out, hr, rfl⟩
    · exact .inr (.inl ⟨len, rfl⟩)
    · exact .inr (.inr (.inl ⟨data, out, hr, rfl⟩))
  case multiTurnAngle len data =>
    rcases decodeOp_next h with ⟨_, rfl⟩ | ⟨_, out, hr, rfl⟩
    · exact .inr (.inl ⟨len, rfl⟩)
    · exact .inr (.inr (.inr ⟨data, out, hr, rfl⟩))
  all_goals
    left
    simp only [exec, execEncoderOffset_eq, execTorqueSetpoint_eq, execSpeedSetpoint_eq, execPositionCtrl1_eq,
      execPositionCtrl2_eq, execPositionCtrl3_eq, execPositionCtrl4_eq, execQueryMotorStatus_eq,
      execQueryMultiTurnAngle_eq, Host.Outcome.next.injEq] at h
    refine ⟨_, _, ?_, h.symm⟩
    repeat' first
      | exact rfl
      | refine setBytes_wf ?_ (by decide) _

/-- What no instruction changes: the parameters, the ports it was read from, the instants to come, `err_transport`. -/
theorem exec_frame {i : Instr} {s t : State} (h : exec i s = .next t) :
    t.params = s.params ∧ t.inp = s.inp ∧ t.upcoming = s.upcoming ∧ t.errTransport = s.errTransport := by
  rcases exec_cases h with ⟨frame, out, _, rfl⟩ | ⟨len, rfl⟩ | ⟨data, out, _, rfl⟩ | ⟨data, out, _, rfl⟩ <;> simp

end Sys2Proof.Machine
end

