-- ==== Sys2Proof/Laws/PerInstr.lean ====
section
/-! SUPPORT. Families of statements over every instruction, one lemma per constructor of Instr. -/

/-! ### NamesItsOperation: the ports that present an instruction name its own operation, whatever its operands
(spec/43_dispatcher.md R180, "Selection is by the kind tag alone"). -/

namespace Sys2Proof.Laws.NamesItsOperation

open Sys2Proof

/-- The transaction of an instruction decodes, and to an instruction of the same row. -/
def Statement (i : Instr) : Prop := ∃ j, decode (encode i) = .ok j ∧ j.operation = i.operation

theorem encoderOffset (offset : Nat) : Statement (.encoderOffset offset) := ⟨_, rfl, rfl⟩

theorem torqueSetpoint (current : Int) : Statement (.torqueSetpoint current) := ⟨_, rfl, rfl⟩

theorem speedSetpoint (rpm : Int) : Statement (.speedSetpoint rpm) := ⟨_, rfl, rfl⟩

theorem positionCtrl1 (degrees : Int) : Statement (.positionCtrl1 degrees) := ⟨_, rfl, rfl⟩

theorem positionCtrl2 (speedLimitRpm : Nat) (degrees : Int) : Statement (.positionCtrl2 speedLimitRpm degrees) :=
  ⟨_, rfl, rfl⟩

theorem positionCtrl3 (degrees : Nat) (dir : Direction) : Statement (.positionCtrl3 degrees dir) := ⟨_, rfl, rfl⟩

theorem positionCtrl4 (degrees speedLimitRpm : Nat) (dir : Direction) :
    Statement (.positionCtrl4 degrees speedLimitRpm dir) := ⟨_, rfl, rfl⟩

theorem queryMotorStatus : Statement .queryMotorStatus := ⟨_, rfl, rfl⟩

theorem queryMultiTurnAngle : Statement .queryMultiTurnAngle := ⟨_, rfl, rfl⟩

theorem motorStatus (len : Nat) (data : FrameWord) : Statement (.motorStatus len data) := ⟨_, rfl, rfl⟩

theorem multiTurnAngle (len : Nat) (data : FrameWord) : Statement (.multiTurnAngle len data) := ⟨_, rfl, rfl⟩

end Sys2Proof.Laws.NamesItsOperation
end

