-- ==== Sys2Proof/Tests/Slice0.lean ====
section
/-! SUPPORT. The model's own tests: expected results are the vectors of spec/95_test_vectors.md (their ids in the
comments) or written out from the encodings of spec/30_encoding.md. And, for every statement with hypotheses, one
theorem that meets them on concrete values, at the boundaries where its clauses meet. -/

namespace Sys2Proof.Tests

open Sys2Proof Sys2Proof.Machine

/-! ### Helpers -/

/-- Does an outcome go on? -/
def goesOn (r : Result) : Bool :=
  match r with
  | .next _ => true
  | _ => false

/-- A check on the next state. -/
def next (r : Result) (p : State → Bool) : Bool :=
  match r with
  | .next t => p t
  | _ => false

/-- Does a decoder read this instruction? -/
def reads (e : Except DecodeError Instr) (i : Instr) : Bool :=
  match e with
  | .ok j => decide (j = i)
  | .error _ => false

/-- Does a decoder reject with this error? -/
def rejects (e : Except DecodeError Instr) (x : DecodeError) : Bool :=
  match e with
  | .ok _ => false
  | .error y => decide (y = x)

/-- The state after reset under other parameters. -/
def under (p : Config.Params) : State := { State.reset with params := p }

/-- `RANGE_POLICY = REJECT`. -/
def rejecting : State := under { Config.defaults with rangePolicy := .reject }

/-- `DIV_MODE = FLOOR`. -/
def flooring : State := under { Config.defaults with divMode := .floor }

/-- A command on the ports. -/
def command (kind : BitVec 4) (a : BitVec 32) (b : BitVec 16) (dir : BitVec 1) : Inputs :=
  { Inputs.idle with cmdValid := true, cmdKind := kind, opA := a, opB := b, opDir := dir }

/-- A received frame on the ports. -/
def response (shape : BitVec 1) (len : BitVec 4) (data : FrameWord) : Inputs :=
  { Inputs.idle with rxValid := true, rxShape := shape, rxLen := len, rxData := data }

/-! ### WellFormed: one ill-formed term for each check -/

theorem test_wf_u16 : Instr.wellFormed (.encoderOffset 65536) = false ∧ Instr.wellFormed (.encoderOffset 65535) = true := by
  decide

theorem test_wf_i16 : Instr.wellFormed (.torqueSetpoint 32768) = false ∧
    Instr.wellFormed (.torqueSetpoint (-32769)) = false ∧ Instr.wellFormed (.torqueSetpoint (-32768)) = true := by
  decide

theorem test_wf_i32 : Instr.wellFormed (.speedSetpoint 2147483648) = false ∧
    Instr.wellFormed (.positionCtrl1 (-2147483649)) = false ∧ Instr.wellFormed (.speedSetpoint 2147483647) = true := by
  decide

theorem test_wf_both_operands : Instr.wellFormed (.positionCtrl2 65536 0) = false ∧
    Instr.wellFormed (.positionCtrl2 0 2147483648) = false ∧
    Instr.wellFormed (.positionCtrl3 65536 .clockwise) = false ∧
    Instr.wellFormed (.positionCtrl4 65536 0 .clockwise) = false ∧
    Instr.wellFormed (.positionCtrl4 0 65536 .clockwise) = false := by
  decide

theorem test_wf_length : Instr.wellFormed (.motorStatus 16 0) = false ∧
    Instr.wellFormed (.multiTurnAngle 16 0) = false ∧ Instr.wellFormed (.motorStatus 15 0) = true := by
  decide

/-! ### Decode: one frame word and one descriptor for every constructor -/

/-- V136: bytes 6 and 7 are 0x34, 0x12; V142: `op_a[31:16]`, `op_b`, `op_dir` ignored. -/
theorem test_decode_encoderOffset :
    decodeTableWord 64 0x1234000000000091 = some (.encoderOffset 0x1234) ∧
    reads (decodeCommand ⟨0, 0xABCD1234, 0xFFFF, 1⟩) (.encoderOffset 0x1234) = true := by decide

/-- V149: bytes 4 and 5 are 0x30, 0xF8; V152: only `op_a[15:0]` is read. -/
theorem test_decode_torqueSetpoint :
    decodeTableWord 64 0x0000F830000000A1 = some (.torqueSetpoint (-2000)) ∧
    reads (decodeCommand ⟨1, 0x00018000, 0, 0⟩) (.torqueSetpoint (-32768)) = true := by decide

/-- V157: bytes 4 to 7 are 0xB0, 0xB9, 0xFF, 0xFF. -/
theorem test_decode_speedSetpoint :
    decodeTableWord 64 0xFFFFB9B0000000A2 = some (.speedSetpoint (-30)) ∧
    decodeTableWord 32 0xA2 = some (.speedSetpoint 0) ∧
    reads (decodeCommand ⟨2, 0xFFFFFFE2, 0, 0⟩) (.speedSetpoint (-30)) = true := by decide

/-- V171: bytes 4 to 7 are 0xD8, 0xDC, 0xFF, 0xFF. -/
theorem test_decode_positionCtrl1 :
    decodeTableWord 64 0xFFFFDCD8000000A3 = some (.positionCtrl1 (-90)) ∧
    reads (decodeCommand ⟨3, 0xFFFFFFA6, 0, 0⟩) (.positionCtrl1 (-90)) = true := by decide

/-- V182: limit 0x50, 0x46 at bytes 2 and 3, position 0xD8, 0xDC, 0xFF, 0xFF. -/
theorem test_decode_positionCtrl2 :
    decodeTableWord 64 0xFFFFDCD8465000A4 = some (.positionCtrl2 30 (-90)) ∧
    decodeTableWord 16 0xA4 = some (.positionCtrl2 0 0) ∧
    reads (decodeCommand ⟨4, 0xFFFFFFA6, 0x001E, 1⟩) (.positionCtrl2 30 (-90)) = true := by decide

/-- V195: direction byte 0x01, position 0xDC, 0xFF; V198: `op_a[31:16]` and `op_b` ignored. -/
theorem test_decode_positionCtrl3 :
    decodeTableWord 64 0x0000FFDC000001A5 = some (.positionCtrl3 655 .counterclockwise) ∧
    reads (decodeCommand ⟨5, 0xFFFF005A, 0x1234, 1⟩) (.positionCtrl3 90 .counterclockwise) = true := by decide

/-- V1 and V200. -/
theorem test_decode_positionCtrl4 :
    decodeTableWord 64 0x00002328465000A6 = some (.positionCtrl4 90 30 .clockwise) ∧
    decodeTableWord 64 0x00002328465001A6 = some (.positionCtrl4 90 30 .counterclockwise) ∧
    reads (decodeCommand ⟨6, 0x0000005A, 0x001E, 0⟩) (.positionCtrl4 90 30 .clockwise) = true := by decide

/-- V208, V209. -/
theorem test_decode_queryMotorStatus :
    decodeTableWord 64 0x9C = some .queryMotorStatus ∧
    reads (decodeCommand ⟨7, 0xFFFFFFFF, 0xFFFF, 1⟩) .queryMotorStatus = true := by decide

/-- V210, V211. -/
theorem test_decode_queryMultiTurnAngle :
    decodeTableWord 64 0x92 = some .queryMultiTurnAngle ∧
    reads (decodeCommand ⟨8, 0xDEADBEEF, 0xBEEF, 1⟩) .queryMultiTurnAngle = true := by decide

/-- V2's frame; the row's 8 bits. -/
theorem test_decode_motorStatus :
    decodeTableWord 64 0x010000640010199C = some (.motorStatus 8 0x010000640010199C) ∧
    decodeTableWord 8 0x9C = some (.motorStatus 8 0x9C) ∧
    decodeReceived ⟨0, 7, 0x9C⟩ = .motorStatus 7 0x9C := by decide

/-- V246's frame; the row's 8 bits. -/
theorem test_decode_multiTurnAngle :
    decodeTableWord 64 0x0000000000232892 = some (.multiTurnAngle 8 0x0000000000232892) ∧
    decodeTableWord 8 0x92 = some (.multiTurnAngle 8 0x92) ∧
    decodeReceived ⟨1, 8, 0x92⟩ = .multiTurnAngle 8 0x92 := by decide

/-- Rejected by name: an illegal kind, an opcode of no row, a reserved byte, a direction byte 0x02, a field that no
operand gives, an echo of no shape. -/
theorem test_decode_rejects :
    rejects (decodeCommand ⟨9, 0, 0, 0⟩) (.illegalKind 9) = true ∧
    rejects (decodeFrame .tx 0xA7) (.unknownOpcode 0xA7) = true ∧
    rejects (decodeFrame .tx 0x00010000000000A1) (.reservedNotZero 0x00010000000000A1) = true ∧
    rejects (decodeFrame .tx 0x02A5) (.reservedNotZero 0x02A5) = true ∧
    rejects (decodeFrame .tx 0x00000001000000A2) (.notConverted 1) = true ∧
    rejects (decodeFrame .rx 0xA1) (.unknownOpcode 0xA1) = true := by decide

/-! ### The meanings, by one step each -/

/-- V142. -/
theorem test_step_encoderOffset :
    next (step (State.reset.present (command 0 0xABCD1234 0xFFFF 1))) (fun t =>
      decide (t.enc = sentOutputs 0x1234000000000091 false)) = true := by decide

/-- V152. -/
theorem test_step_torqueSetpoint :
    next (step (State.reset.present (command 1 0x00018000 0 0))) (fun t =>
      decide (t.enc = sentOutputs 0x00008000000000A1 false)) = true := by decide

/-- V161, V163: wrapped with the flag. -/
theorem test_step_speedSetpoint_wraps :
    next (step (State.reset.present (command 2 0x00369D04 0 0))) (fun t =>
      decide (t.enc = sentOutputs 0x80000160000000A2 true)) = true ∧
    next (step (State.reset.present (command 2 0xFFC962FC 0 0))) (fun t =>
      decide (t.enc = sentOutputs 0x7FFFFEA0000000A2 true)) = true := by decide

/-- V219, V220: `REJECT` withholds 3579140 and sends 3579139. -/
theorem test_step_speedSetpoint_reject :
    next (step (rejecting.present (command 2 0x00369D04 0 0))) (fun t => decide (t.enc = withheldOutputs)) = true ∧
    next (step (rejecting.present (command 2 0x00369D03 0 0))) (fun t =>
      decide (t.enc = sentOutputs 0x7FFFFF08000000A2 false)) = true := by decide

/-- V177: -21474837 wraps with the flag. -/
theorem test_step_positionCtrl1 :
    next (step (State.reset.present (command 3 0xFEB851EB 0 0))) (fun t =>
      decide (t.enc = sentOutputs 0x7FFFFFCC000000A3 true)) = true := by decide

/-- V188, V185: both fields at their bounds; the limit alone out of range. -/
theorem test_step_positionCtrl2 :
    next (step (State.reset.present (command 4 0xFEB851EC 0x006D 1))) (fun t =>
      decide (t.enc = sentOutputs 0x80000030FF7800A4 false)) = true ∧
    next (step (State.reset.present (command 4 0 0x006E 0))) (fun t =>
      decide (t.enc = sentOutputs 0x0000000001D000A4 true)) = true := by decide

/-- V196. -/
theorem test_step_positionCtrl3 :
    next (step (State.reset.present (command 5 0x00000290 0 1))) (fun t =>
      decide (t.enc = sentOutputs 0x00000040000001A5 true)) = true := by decide

/-- V1, V207. -/
theorem test_step_positionCtrl4 :
    next (step (State.reset.present (command 6 0x0000005A 0x001E 0))) (fun t =>
      decide (t.enc = sentOutputs 0x00002328465000A6 false)) = true ∧
    next (step (State.reset.present (command 6 0x0000FFFF 0xFFFF 1))) (fun t =>
      decide (t.enc = sentOutputs 0x0000FF9CFDA801A6 true)) = true := by decide

/-- V209: from a state that holds another frame (R255). -/
theorem test_step_queryMotorStatus :
    next (step (State.present { State.reset with tx := frameOfPort 0x0000FF9CFDA801A6 } (command 7 0xFFFFFFFF 0xFFFF 1)))
      (fun t => decide (t.enc = sentOutputs 0x9C false) && decide (t.tx = [(0, 0x9C)])) = true := by decide

/-- V211. -/
theorem test_step_queryMultiTurnAngle :
    next (step (State.reset.present (command 8 0xDEADBEEF 0xBEEF 1))) (fun t =>
      decide (t.enc = sentOutputs 0x92 false)) = true := by decide

/-- V228 under `TRUNC` and `FLOOR`. -/
theorem test_step_motorStatus :
    next (step (State.reset.present (response 0 8 0xFFFFFF9CFFF0E79C))) (fun t =>
      decide (t.dec = ⟨true, -25, -16, -16, 65535, false, 0, 0x9C, false⟩)) = true ∧
    next (step (flooring.present (response 0 8 0xFFFFFF9CFFF0E79C))) (fun t =>
      decide (t.dec.stSpeed = -17)) = true := by decide

/-- V269: nine bytes are malformed. -/
theorem test_step_motorStatus_malformed :
    next (step (State.reset.present (response 0 9 0x010000640010199C))) (fun t =>
      decide (t.dec = malformedOutputs)) = true := by decide

/-- V256, V255: -90 under `SEXT56`; -150 hundredths under `FLOOR`. -/
theorem test_step_multiTurnAngle :
    next (step (State.reset.present (response 1 8 0xFFFFFFFFFFDCD892))) (fun t =>
      decide (t.dec = ⟨false, 0, 0, 0, 0, true, -90, 0x92, false⟩)) = true ∧
    next (step (flooring.present (response 1 8 0xFFFFFFFFFFFF6A92))) (fun t =>
      decide (t.dec.angDeg = -2)) = true := by decide

/-- V260 under the three extensions. -/
theorem test_step_multiTurnAngle_extensions :
    next (step (State.reset.present (response 1 8 0x8000000000232892))) (fun t =>
      decide (t.dec.angDeg = -360287970189549)) = true ∧
    next (step ((under { Config.defaults with angleExt := .zext56 }).present (response 1 8 0x8000000000232892)))
      (fun t => decide (t.dec.angDeg = 360287970189729)) = true ∧
    next (step ((under { Config.defaults with angleExt := .signMag56 }).present (response 1 8 0x8000000000232892)))
      (fun t => decide (t.dec.angDeg = -90)) = true := by decide

/-- P4 @2: three error conditions at one instant, one per path. -/
theorem test_step_three_errors :
    next (step (State.reset.present { command 2 0x00369D04 0 0 with
        rxValid := true, rxShape := 1, rxLen := 3, rxData := 0x232892, tpErr := 1 })) (fun t =>
      decide (t.enc = sentOutputs 0x80000160000000A2 true) && decide (t.dec = malformedOutputs) &&
        decide (t.errTransport = 1)) = true := by decide

/-- V217: `IllegalKind` under `REJECT`, no range flag. -/
theorem test_step_illegalKind :
    next (step (rejecting.present (command 12 0x7FFFFFFF 0xFFFF 1))) (fun t =>
      decide (t.enc = illegalKindOutputs)) = true := by decide

/-- With `TPW = 8`, `tp_err = 0xA5` comes out as 0xA5 (section 2.4). -/
theorem test_step_transport :
    next (step ((under { Config.defaults with tpw := 8 }).present { Inputs.idle with tpErr := 0xA5 })) (fun t =>
      decide (t.errTransport = 0xA5)) = true := by decide

/-- An access past the frame faults. -/
theorem test_access_outside : memWrite [] 7 2 0 = .error (.outsideFrame 7 2) ∧
    memRead [] 2 7 = .error (.outsideFrame 2 7) ∧ memRead [] 1 7 = .ok 0 := ⟨rfl, rfl, rfl⟩

/-- The cause codes of 60_exceptions.md R221. -/
theorem test_condition_codes :
    [Condition.malformedFrame 3, .outOfRange, .transportFailure 1, .illegalKind].map Condition.code = [1, 2, 3, 4] := by
  decide

/-! ### Witnesses: the hypotheses of each statement met on concrete values -/

theorem witness_EncoderOffsetSendsRawOffset : (⟨0, 0xFFFFFFFF, 0, 0⟩ : CommandDescriptor).kind = 0 := by decide

theorem witness_TorqueSetpointSendsRawCurrent : (⟨1, 0xFFFFFFFF, 0, 0⟩ : CommandDescriptor).kind = 1 := by decide

theorem witness_SpeedSetpointSendsScaledSpeed :
    (⟨2, 0, 0, 0⟩ : CommandDescriptor).kind = 2 ∧
    (-3579139 ≤ (3579139 : Int) ∧ (3579139 : Int) ≤ 3579139) ∧ (-3579139 ≤ (-3579139 : Int)) ∧
    ((-3579140 : Int) < -3579139 ∨ 3579139 < (-3579140 : Int)) ∧ (3579139 : Int) < 3579140 ∧
    State.reset.params.rangePolicy = .wrapSend ∧ rejecting.params.rangePolicy = .reject := by decide

theorem witness_PositionCtrl1SendsScaledPosition :
    (⟨3, 0, 0, 0⟩ : CommandDescriptor).kind = 3 ∧
    (-21474836 ≤ (21474836 : Int) ∧ (21474836 : Int) ≤ 21474836) ∧ (-21474836 ≤ (-21474836 : Int)) ∧
    ((-21474837 : Int) < -21474836 ∨ 21474836 < (-21474837 : Int)) ∧ (21474836 : Int) < 21474837 ∧
    State.reset.params.rangePolicy = .wrapSend ∧ rejecting.params.rangePolicy = .reject := by decide

theorem witness_PositionCtrl2SendsLimitAndPosition :
    (⟨4, 0, 0, 0⟩ : CommandDescriptor).kind = 4 ∧
    ((109 : Nat) ≤ 109 ∧ -21474836 ≤ (-21474836 : Int) ∧ (-21474836 : Int) ≤ 21474836) ∧
    ((109 : Nat) < 110 ∨ (0 : Int) < -21474836 ∨ 21474836 < (0 : Int)) ∧
    ((109 : Nat) < 109 ∨ (-21474837 : Int) < -21474836 ∨ 21474836 < (-21474837 : Int)) ∧
    State.reset.params.rangePolicy = .wrapSend ∧ rejecting.params.rangePolicy = .reject := by decide

theorem witness_PositionCtrl3SendsDirectionAndPosition :
    (⟨5, 0, 0, 1⟩ : CommandDescriptor).kind = 5 ∧ (655 : Nat) ≤ 655 ∧ (655 : Nat) < 656 ∧
    State.reset.params.rangePolicy = .wrapSend ∧ rejecting.params.rangePolicy = .reject := by decide

theorem witness_PositionCtrl4SendsDirectionLimitAndPosition :
    (⟨6, 0, 0, 1⟩ : CommandDescriptor).kind = 6 ∧ ((109 : Nat) ≤ 109 ∧ (655 : Nat) ≤ 655) ∧
    ((109 : Nat) < 110 ∨ (655 : Nat) < 655) ∧ ((109 : Nat) < 109 ∨ (655 : Nat) < 656) ∧
    State.reset.params.rangePolicy = .wrapSend ∧ rejecting.params.rangePolicy = .reject := by decide

theorem witness_QueriesSendTheOpcodeAlone :
    (⟨7, 5, 6, 1⟩ : CommandDescriptor).kind = 7 ∧ (⟨8, 5, 6, 1⟩ : CommandDescriptor).kind = 8 := by decide

theorem witness_MotorStatusDecodesTelemetry :
    (⟨0, 8, 0x9C⟩ : ReceivedFrame).shape = 0 ∧ (7 : Nat) ≠ 8 ∧ (9 : Nat) ≠ 8 := by decide

theorem witness_MultiTurnAngleDecodesDegrees :
    (⟨1, 8, 0x92⟩ : ReceivedFrame).shape = 1 ∧ (7 : Nat) ≠ 8 ∧ (9 : Nat) ≠ 8 := by decide

theorem witness_ByteZeroOnlyReachesRxOpcode :
    (0x010000640010199C : FrameWord).extractLsb' 8 56 = (0x0100006400101900 : FrameWord).extractLsb' 8 56 ∧
    goesOn (exec (.motorStatus 8 0x010000640010199C) State.reset) = true ∧
    goesOn (exec (.motorStatus 8 0x0100006400101900) State.reset) = true ∧
    goesOn (exec (.multiTurnAngle 8 0x010000640010199C) State.reset) = true ∧
    goesOn (exec (.multiTurnAngle 8 0x0100006400101900) State.reset) = true := by decide

theorem witness_EncodeOperationsChangeOnlyTheEncoderSide :
    isCommand (.positionCtrl4 90 30 .clockwise) = true ∧
    goesOn (exec (.positionCtrl4 90 30 .clockwise) State.reset) = true := by decide

theorem witness_DecodeOperationsChangeOnlyTheDecoderSide :
    goesOn (exec (.motorStatus 8 0x9C) State.reset) = true ∧
    goesOn (exec (.multiTurnAngle 7 0x92) State.reset) = true := by decide

theorem witness_RangeFlagIffOperandsOutOfBounds :
    isCommand (.positionCtrl3 656 .clockwise) = true ∧
    goesOn (exec (.positionCtrl3 656 .clockwise) State.reset) = true ∧
    goesOn (exec (.positionCtrl3 655 .clockwise) State.reset) = true := by decide

theorem witness_RangePolicyDecidesTheSend :
    isCommand (.positionCtrl3 656 .clockwise) = true ∧
    State.reset.params.rangePolicy = .wrapSend ∧ rejecting.params.rangePolicy = .reject := by decide

theorem witness_SentFrameIsInstanceOfItsRow :
    isCommand (.positionCtrl3 656 .counterclockwise) = true ∧
    next (exec (.positionCtrl3 656 .counterclockwise) State.reset) (fun t => t.enc.txValid) = true := by decide

theorem witness_DirectionOccupiesByteOneAlone :
    (0 : Nat) ≠ 1 ∧ (2 : Nat) ≠ 1 ∧
    goesOn (exec (.positionCtrl3 90 .clockwise) State.reset) = true ∧
    goesOn (exec (.positionCtrl3 90 .counterclockwise) State.reset) = true ∧
    goesOn (exec (.positionCtrl4 90 30 .clockwise) State.reset) = true ∧
    goesOn (exec (.positionCtrl4 90 30 .counterclockwise) State.reset) = true ∧
    goesOn (exec (.positionCtrl1 (-90)) State.reset) = true ∧
    goesOn (exec (.positionCtrl2 30 (-90)) State.reset) = true := by decide

theorem witness_StepRunsDecodedInstruction :
    ((State.reset.present (command 7 0 0 0)).sample.inp.cmdValid = true ∧
      (State.reset.present (command 7 0 0 0)).sample.inp.rxValid = false ∧
      reads (decode (.command (State.reset.present (command 7 0 0 0)).sample.inp.descriptor)) .queryMotorStatus = true) ∧
    ((State.reset.present (response 0 8 0x9C)).sample.inp.cmdValid = false ∧
      (State.reset.present (response 0 8 0x9C)).sample.inp.rxValid = true ∧
      reads (decode (.received (State.reset.present (response 0 8 0x9C)).sample.inp.received))
        (.motorStatus 8 0x9C) = true) ∧
    ((State.reset.present { command 7 0 0 0 with rxValid := true }).sample.inp.cmdValid = true ∧
      (State.reset.present { command 7 0 0 0 with rxValid := true }).sample.inp.rxValid = true ∧
      reads (decode (.command (State.reset.present { command 7 0 0 0 with rxValid := true }).sample.inp.descriptor))
        .queryMotorStatus = true ∧
      reads (decode (.received (State.reset.present { command 7 0 0 0 with rxValid := true }).sample.inp.received))
        (.motorStatus 0 0) = true) := by decide

theorem witness_StepMatchesSpecFunctions :
    (State.reset.present (command 6 90 30 0)).upcoming = command 6 90 30 0 :: [] := by decide

theorem witness_RunMatchesSpecFunctions :
    2 ≤ ((State.reset.present (response 0 8 0x9C)).present (command 6 90 30 0)).upcoming.length := by decide

theorem witness_SendsOncePerLegalCommandInOrder :
    2 ≤ ((State.reset.present (command 7 0 0 0)).present (command 7 0 0 0)).upcoming.length ∧
    sends (trace 2 ((State.reset.present (command 7 0 0 0)).present (command 7 0 0 0))) =
      [(0x0141, 0x9C), (0x0141, 0x9C)] := by decide

theorem witness_IllegalKindRaisesItsFlagAlone :
    (State.reset.present (command 9 0 0 0)).upcoming = command 9 0 0 0 :: [] ∧
    (command 9 0 0 0).cmdValid = true ∧ 8 < (command 9 0 0 0).cmdKind.toNat := by decide

theorem witness_MalformedFrameRaisesItsFlagAlone :
    (State.reset.present (response 1 7 0x92)).upcoming = response 1 7 0x92 :: [] ∧
    (response 1 7 0x92).rxValid = true ∧ (response 1 7 0x92).rxLen ≠ 8 ∧ (response 1 9 0x92).rxLen ≠ 8 ∧
    (7 : Nat) ≠ 8 := by decide

theorem witness_TransportFailurePassesThrough :
    (State.reset.present (command 7 0 0 0)).upcoming = command 7 0 0 0 :: [] ∧
    State.reset.present { command 7 0 0 0 with tpErr := 1 } =
      { State.reset.present (command 7 0 0 0) with upcoming := { command 7 0 0 0 with tpErr := 1 } :: [] } ∧
    goesOn (step (State.reset.present (command 7 0 0 0))) = true ∧
    goesOn (step (State.reset.present { command 7 0 0 0 with tpErr := 1 })) = true := by decide

theorem witness_IdleHostGivesIdleOutputs :
    (State.reset.present { Inputs.idle with tpErr := 1 }).upcoming = { Inputs.idle with tpErr := 1 } :: [] ∧
    ({ Inputs.idle with tpErr := 1 } : Inputs).cmdValid = false ∧
    ({ Inputs.idle with tpErr := 1 } : Inputs).rxValid = false := by decide

theorem witness_EmptyListingStepsIdle : State.reset.upcoming = [] := by decide

/-- The two inputs differ in every port a `PositionCtrl3` and a malformed frame do not read, and in their history. -/
theorem witness_UnreadInputsDoNotMatter :
    State.reset.params = ({ State.reset with tx := [(0, 0xA6)] } : State).params ∧
    sameCommandRead { command 5 0x0000005A 0 1 with rxValid := true }
      { command 5 0xFFFF005A 0x1234 1 with rxValid := true, rxShape := 1, rxData := 0x92, tpErr := 1 } ∧
    sameFrameRead { command 5 0x0000005A 0 1 with rxValid := true }
      { command 5 0xFFFF005A 0x1234 1 with rxValid := true, rxShape := 1, rxData := 0x92, tpErr := 1 } ∧
    goesOn (step (State.reset.present { command 5 0x0000005A 0 1 with rxValid := true })) = true ∧
    goesOn (step (State.present { State.reset with tx := [(0, 0xA6)] }
      { command 5 0xFFFF005A 0x1234 1 with rxValid := true, rxShape := 1, rxData := 0x92, tpErr := 1 })) = true ∧
    (command 5 0x0000005A 0 1).tpErr = (command 6 0 0 0).tpErr := by
  unfold sameCommandRead sameFrameRead
  decide

theorem witness_NoStateBetweenTransactions :
    State.reset.params = ({ State.reset with tx := [(1, 0xA6)], enc := withheldOutputs } : State).params ∧
    goesOn (step (State.reset.present (command 7 0 0 0))) = true ∧
    goesOn (step (State.present { State.reset with tx := [(1, 0xA6)], enc := withheldOutputs } (command 7 0 0 0))) =
      true := by decide

theorem witness_EncodeAndDecodeCommute :
    isCommand .queryMotorStatus = true ∧ isCommand (.motorStatus 8 0x9C) = false := by decide

/-- A state with a command, a response and a transport failure still to come meets the invariant, and steps. -/
theorem witness_EveryStepKeepsInv :
    ((State.reset.present { command 7 0 0 0 with tpErr := 1 }).present (response 0 8 0x9C)).Inv ∧
    goesOn (step ((State.reset.present { command 7 0 0 0 with tpErr := 1 }).present (response 0 8 0x9C))) = true := by
  refine ⟨?_, by decide⟩
  constructor <;> decide

theorem witness_DecodeInvertsEncodeOnPorts :
    Instr.wellFormed (.positionCtrl4 65535 65535 .counterclockwise) = true ∧
    Instr.wellFormed (.speedSetpoint (-2147483648)) = true := by decide

theorem witness_PortsNameWellFormedInstruction :
    (⟨8, 0, 0, 0⟩ : CommandDescriptor).kind.toNat ≤ 8 ∧ 8 < (⟨9, 0, 0, 0⟩ : CommandDescriptor).kind.toNat := by decide

theorem witness_DecodeInvertsEncodeOnFrames :
    (Instr.wellFormed (.positionCtrl2 109 (-21474836)) = true ∧ isCommand (.positionCtrl2 109 (-21474836)) = true ∧
      operandsOutOfBounds (.positionCtrl2 109 (-21474836)) = false) ∧
    (0x010000640010199C : FrameWord).extractLsb' 0 8 = 0x9C ∧
    (0x0000000000232892 : FrameWord).extractLsb' 0 8 = 0x92 := by decide

theorem witness_SentFrameReadsBackAsTheCommand :
    Instr.wellFormed (.speedSetpoint 3579139) = true ∧ isCommand (.speedSetpoint 3579139) = true ∧
    next (exec (.speedSetpoint 3579139) State.reset) (fun t => t.enc.txValid && !t.enc.errRange) = true := by decide

theorem witness_TableRowsOfOnePathAreDisjoint :
    isInstance .tx 0x00002328465000A6 .positionCtrl4 = true ∧ isInstance .rx 0x9C .motorStatus = true := by decide

theorem witness_FetchWordRunsTheTableWord :
    decodeTableWord 64 0x00002328465000A6 = some (.positionCtrl4 90 30 .clockwise) ∧
    decodeTableWord 8 0x9C = some (.motorStatus 8 0x9C) := by decide

theorem witness_RoundingModesDifferByOneOnNegatives :
    (0 : Int) < 360 ∧ ((-7 : Int) < 0 ∧ ¬(6 : Int) ∣ -7) ∧ idiv .trunc (-7) 6 = -1 ∧ idiv .floor (-7) 6 = -2 := by
  decide

theorem witness_WireSpeedIsOneSixth : Config.defaults.divMode = .trunc := by decide

theorem witness_AngleExtensions :
    (0x7FFFFFFFFFFFFF : BitVec 56).msb = false ∧
    extendAngle .signMag56 0x80000000000000 = 0 := by decide

theorem witness_WrapLaw :
    1 ≤ 16 ∧ (0 ≤ (65600 : Int) - 1 * 2 ^ 16 ∧ (65600 : Int) - 1 * 2 ^ 16 ≤ 2 ^ 16 - 1) ∧
    (-(2 ^ (16 - 1)) ≤ (65600 : Int) - 1 * 2 ^ 16 ∧ (65600 : Int) - 1 * 2 ^ 16 ≤ 2 ^ (16 - 1) - 1) := by decide

theorem witness_RoundTripLaws :
    (-5461 ≤ (-5461 : Int) ∧ (-5461 : Int) ≤ 5461) ∧
    (-360287970189639 ≤ (360287970189639 : Int) ∧ (360287970189639 : Int) ≤ 360287970189639) ∧
    (0 ≤ (720575940379279 : Int) ∧ (720575940379279 : Int) ≤ 720575940379279) ∧ (-1 : Int) < 0 := by decide

theorem witness_FramePortsAreLittleEndian :
    7 < 8 ∧ Memory.wf [(0, 0xA6), (7, 0x12)] = true ∧ 1 + 7 ≤ 8 := by decide

theorem witness_SerializerAndDeserializerAreInverse :
    Memory.wf [(0, 0xA6), (7, 0x12)] = true ∧ 6 + 2 ≤ 8 ∧ 4 + 4 ≤ 8 ∧
    (65600 : Int) % 2 ^ 16 = 64 % 2 ^ 16 ∧ (4294967300 : Int) % 2 ^ 32 = 4 % 2 ^ 32 := by decide

end Sys2Proof.Tests
end

section
/-! PROOFS. The two paths of a sampling instant, one lemma per branch, and what a step makes of them. -/

namespace Sys2Proof.Machine

/-! ### Going on -/

/-- Two continuations that agree on every state an outcome can go on with give the same outcome. -/
theorem andThen_congr {r : Result} {f g : State → Result} (h : ∀ t, r = .next t → f t = g t) :
    andThen r f = andThen r g := by
  cases r with
  | next t => exact h t rfl
  | fault e => rfl
  | refused e => rfl

@[simp] theorem andThen_next_right (r : Result) : andThen r .next = r := by
  cases r <;> rfl

/-! ### The paths -/

/-- R190: a presented command runs. -/
theorem encoderPath_of_decode {s : State} {i : Instr} (hv : s.inp.cmdValid = true)
    (hi : decode (.command s.inp.descriptor) = .ok i) : encoderPath s = exec i s := by
  simp [encoderPath, hv, hi]

theorem encoderPath_of_no_command {s : State} (hv : s.inp.cmdValid = false) : encoderPath s = .next s := by
  simp [encoderPath, hv]

/-- R207: a presented frame runs its decode operation. -/
theorem decoderPath_of_decode {s : State} {j : Instr} (hv : s.inp.rxValid = true)
    (hj : decode (.received s.inp.received) = .ok j) : decoderPath s = exec j s := by
  have hr : decodeReceived s.inp.received = j := Except.ok.inj hj
  rw [decoderPath, if_pos hv, hr]

theorem decoderPath_of_no_frame {s : State} (hv : s.inp.rxValid = false) : decoderPath s = .next s := by
  simp [decoderPath, hv]

/-! ### The decoder path behind a command: it reads the ports the command was read from (`exec_frame`) -/

theorem andThen_exec_decoderPath_of_decode {i j : Instr} {s : State} (hv : s.inp.rxValid = true)
    (hj : decode (.received s.inp.received) = .ok j) : andThen (exec i s) decoderPath = andThen (exec i s) (exec j) := by
  refine andThen_congr fun t ht => ?_
  obtain ⟨-, hinp, -, -⟩ := exec_frame ht
  rw [← hinp] at hv hj
  exact decoderPath_of_decode hv hj

theorem andThen_exec_decoderPath_of_no_frame {i : Instr} {s : State} (hv : s.inp.rxValid = false) :
    andThen (exec i s) decoderPath = exec i s := by
  have hidle : andThen (exec i s) decoderPath = andThen (exec i s) .next := by
    refine andThen_congr fun t ht => ?_
    obtain ⟨-, hinp, -, -⟩ := exec_frame ht
    rw [← hinp] at hv
    exact decoderPath_of_no_frame hv
  rw [hidle, andThen_next_right]

/-! ### The step -/

/-- The state a sampling instant starts from, field by field. -/
theorem sample_eq (s : State) : s.sample =
    { s with
      inp := s.upcoming.headD Inputs.idle
      upcoming := s.upcoming.tail
      tx := []
      rx := []
      enc := EncoderOutputs.idle
      dec := DecoderOutputs.idle
      errTransport := (s.upcoming.headD Inputs.idle).tpErr % 2 ^ s.params.tpw } := rfl

theorem step_of_command {s : State} {i : Instr} (hc : s.sample.inp.cmdValid = true)
    (hi : decode (.command s.sample.inp.descriptor) = .ok i) : step s = andThen (exec i s.sample) decoderPath := by
  rw [step, encoderPath_of_decode hc hi]

theorem step_of_no_command {s : State} (hc : s.sample.inp.cmdValid = false) : step s = decoderPath s.sample := by
  rw [step, encoderPath_of_no_command hc, andThen_next]

/-- Settles O19, one case per set of paths in use. -/
theorem stepRunsDecodedInstruction : Obligations.StepRunsDecodedInstruction := by
  refine ⟨sample_eq, ?commandAlone, ?frameAlone, ?both⟩
  case commandAlone =>
    intro s i hc hr hi
    rw [step_of_command hc hi, andThen_exec_decoderPath_of_no_frame hr]
  case frameAlone =>
    intro s j hc hr hj
    rw [step_of_no_command hc, decoderPath_of_decode hr hj]
  case both =>
    intro s i j hc hr hi hj
    rw [step_of_command hc hi, andThen_exec_decoderPath_of_decode hr hj]

end Sys2Proof.Machine
end

section
/-! PROOFS. The scaling units as wrapping arithmetic on the port words (spec/40_scaling.md R112 to R119): each scaled
field of the model, and each division of a received field, against the machine arithmetic of Safety. -/

namespace Sys2Proof.Machine

/-! ### Rounded division -/

/-- An exact division rounds nowhere (40_scaling.md R111). -/
theorem idiv_mul_cancel (mode : Config.DivMode) (q : Int) {b : Int} (hb : b ≠ 0) : idiv mode (q * b) b = q := by
  cases mode
  · exact Int.mul_tdiv_cancel q hb
  · exact Int.mul_fdiv_cancel q hb

/-- A common positive factor cancels under either rounding. -/
theorem idiv_mul_mul (mode : Config.DivMode) (a b : Int) {c : Int} (hc : 0 < c) :
    idiv mode (a * c) (b * c) = idiv mode a b := by
  cases mode
  · exact Int.mul_tdiv_mul_of_pos_left a b hc
  · exact Int.mul_fdiv_mul_of_pos_left a b hc

/-- Machine division by a positive constant is the rounded integer division, whatever the width. -/
theorem divRounded_eq_trunc_idiv {n : Nat} (mode : Config.DivMode) (a : BitVec n) {b : BitVec n} (hb : 0 < b.toInt) :
    divRounded mode a b = trunc n (idiv mode a.toInt b.toInt) := by
  have hquot : a.sdiv b = BitVec.ofInt n (a.toInt.tdiv b.toInt) :=
    BitVec.eq_of_toInt_eq (by rw [BitVec.toInt_sdiv, BitVec.toInt_ofInt])
  have hrem : a.srem b ≠ 0 ↔ ¬ b.toInt ∣ a.toInt := by
    rw [Int.dvd_iff_tmod_eq_zero, ← BitVec.toInt_srem, ← BitVec.toInt_zero (w := n), BitVec.toInt_inj]; rfl
  cases mode with
  | trunc => exact hquot
  | floor =>
    have hneg : a.msb = true ↔ a.toInt < 0 := by rw [BitVec.msb_eq_toInt, decide_eq_true_iff]
    simp only [divRounded, idiv, trunc, Int.fdiv_eq_tdiv, hneg, hrem, hquot]
    by_cases hdvd : b.toInt ∣ a.toInt
    · simp [hdvd]
    · by_cases ha : 0 ≤ a.toInt
      · simp [hdvd, ha, hb.le]
      · simp [hdvd, ha, hb.le, Int.sign_eq_one_of_pos hb, Int.sub_eq_add_neg, BitVec.ofInt_add, BitVec.sub_eq_add_neg,
          not_le.mp ha, BitVec.ofInt_neg]

/-! ### Commands: a scaled field is the port word times the scale -/

/-- 40_scaling.md R112: `SCL_RPM2CDPS` loses nothing in its division. -/
theorem rpmToCdps_eq_mul (mode : Config.DivMode) (rpm : Int) : rpmToCdps mode rpm = rpm * 600 := by
  have hexact : rpm * 360 = rpm * 6 * 60 := by omega
  have hdps : idiv mode (rpm * 360) 60 = rpm * 6 := by rw [hexact, idiv_mul_cancel mode _ (by decide)]
  simp only [rpmToCdps, hdps]
  omega

/-- 40_scaling.md R118: truncation wraps, so it commutes with the scale. -/
theorem trunc_mul (n : Nat) (v c : Int) : trunc n (v * c) = trunc n v * trunc n c := BitVec.ofInt_mul v c

@[simp] theorem trunc_sint {n : Nat} (x : BitVec n) : trunc n (sint x) = x := BitVec.ofInt_toInt

@[simp] theorem trunc_uint {n : Nat} (x : BitVec n) : trunc n (uint x : Int) = x := by
  rw [trunc, uint, BitVec.ofInt_natCast, BitVec.ofNat_toNat, BitVec.setWidth_eq]

theorem trunc_rpmToCdps (n : Nat) (mode : Config.DivMode) (rpm : Int) :
    trunc n (rpmToCdps mode rpm) = trunc n rpm * 600 := by
  rw [rpmToCdps_eq_mul, trunc_mul]; rfl

theorem trunc_degToCdeg (n : Nat) (degrees : Int) : trunc n (degToCdeg degrees) = trunc n degrees * 100 :=
  trunc_mul n degrees 100

/-! ### The range monitor in operand terms (43_dispatcher.md R185) -/

theorem fieldFits_signed (v : Int) (n : Nat) :
    fieldFits ⟨v, n, true⟩ = decide (-(2 ^ (n - 1)) ≤ v ∧ v ≤ 2 ^ (n - 1) - 1) :=
  (Bool.decide_and _ _).symm

theorem fieldFits_unsigned (v : Int) (n : Nat) :
    fieldFits ⟨v, n, false⟩ = decide (0 ≤ v ∧ v ≤ 2 ^ n - 1) :=
  (Bool.decide_and _ _).symm

theorem not_fieldFits_rpm32 (mode : Config.DivMode) (rpm : Int) :
    (!fieldFits ⟨rpmToCdps mode rpm, 32, true⟩) = decide (rpm < -3579139 ∨ 3579139 < rpm) := by
  rw [rpmToCdps_eq_mul, fieldFits_signed, ← decide_not, decide_eq_decide]
  omega

theorem not_fieldFits_deg32 (degrees : Int) :
    (!fieldFits ⟨degToCdeg degrees, 32, true⟩) = decide (degrees < -21474836 ∨ 21474836 < degrees) := by
  rw [degToCdeg, fieldFits_signed, ← decide_not, decide_eq_decide]
  omega

theorem not_fieldFits_rpm16 (mode : Config.DivMode) (limit : Nat) :
    (!fieldFits ⟨rpmToCdps mode limit, 16, false⟩) = decide (109 < limit) := by
  rw [rpmToCdps_eq_mul, fieldFits_unsigned, ← decide_not, decide_eq_decide]
  omega

theorem not_fieldFits_deg16 (degrees : Nat) :
    (!fieldFits ⟨degToCdeg degrees, 16, false⟩) = decide (655 < degrees) := by
  rw [degToCdeg, fieldFits_unsigned, ← decide_not, decide_eq_decide]
  omega

/-- The monitor flags a list of fields when it flags one of them (43_dispatcher.md R184). -/
theorem rangeErr_cons (f : ScaledField) (fs : List ScaledField) : rangeErr (f :: fs) = (!fieldFits f || rangeErr fs) :=
  rfl

@[simp] theorem rangeErr_nil : rangeErr [] = false := rfl

/-! ### Received fields -/

/-- 40_scaling.md R115: the wire speed is one sixth of the raw value, rounded. -/
theorem wireToRpm_eq_idiv (mode : Config.DivMode) (raw : Int) : wireToRpm mode raw = idiv mode raw 6 :=
  idiv_mul_mul mode raw 6 (by decide : (0 : Int) < 60)

theorem trunc_wireToRpm_sint (mode : Config.DivMode) (raw : BitVec 16) :
    trunc 16 (wireToRpm mode (sint raw)) = divRounded mode raw 6 := by
  rw [wireToRpm_eq_idiv, divRounded_eq_trunc_idiv mode raw (by decide)]
  rfl

/-- 44_decoder.md R203: 64 bits hold every reading of the 56 wire bits. -/
theorem accumulator_toInt (ext : Config.AngleExt) (a : BitVec 56) : (accumulator ext a).toInt = extendAngle ext a := by
  cases ext with
  | sext56 => exact BitVec.toInt_signExtend_of_le (by decide)
  | zext56 =>
    have hlt := a.isLt
    have hw : (a.setWidth 64).toNat = a.toNat := BitVec.toNat_setWidth_of_le (by decide)
    simp only [accumulator, extendAngle, uint]
    rw [BitVec.toInt_eq_toNat_of_lt (by omega), hw]
  | signMag56 =>
    have hlt := (a.setWidth 55).isLt
    have hw : ((a.setWidth 55).setWidth 64).toNat = (a.setWidth 55).toNat := BitVec.toNat_setWidth_of_le (by decide)
    have hmag : ((a.setWidth 55).setWidth 64).toInt = (a.setWidth 55).toNat := by
      rw [BitVec.toInt_eq_toNat_of_lt (by omega), hw]
    have hslice : slice a 0 55 = a.setWidth 55 := (BitVec.setWidth_eq_extractLsb' (by decide)).symm
    have hsign : a.getLsbD 55 = a.msb := (BitVec.msb_eq_getLsbD_last a).symm
    simp only [accumulator, extendAngle, uint, hslice, hsign]
    split
    · rw [BitVec.toInt_neg, hmag, Int.bmod_eq_of_le (by omega) (by omega)]
    · exact hmag

theorem trunc_cdegToDeg_extendAngle (mode : Config.DivMode) (ext : Config.AngleExt) (a : BitVec 56) :
    trunc 64 (cdegToDeg mode (extendAngle ext a)) = divRounded mode (accumulator ext a) 100 := by
  rw [divRounded_eq_trunc_idiv mode _ (by decide), accumulator_toInt]
  rfl

end Sys2Proof.Machine
end

section
/-! PROOFS. A frame space and the 64-bit port value it stands for (spec/20_memory.md R55), byte by byte, and the frame
of each format of spec/30_encoding.md R81 as its eight port bytes. -/

namespace Sys2Proof.Machine

/-! ### Bytes of a port value -/

theorem ofNat_div_eq_portByte {n : Nat} (v : BitVec n) (k : Nat) :
    BitVec.ofNat 8 (uint v / 256 ^ k) = portByte v k := by
  have hpow : 256 ^ k = 2 ^ (8 * k) := by rw [Nat.pow_mul]
  apply BitVec.eq_of_toNat_eq
  rw [portByte, BitVec.extractLsb'_toNat, BitVec.toNat_ofNat, Nat.shiftRight_eq_div_pow, hpow, uint]

@[simp] theorem portByte_byte (b : Byte) : portByte b 0 = b := BitVec.extractLsb'_eq_self

@[simp] theorem portByte_zero (n k : Nat) : portByte (0#n) k = 0 := BitVec.extractLsb'_zero

/-- A narrowed port value keeps its low bytes. -/
theorem portByte_setWidth {n w k : Nat} (v : BitVec n) (h : 8 * k + 8 ≤ w) :
    portByte (v.setWidth w) k = portByte v k := BitVec.extractLsb'_setWidth_of_le h

/-- `byteAt_setBytes` for a port value: the written bytes are the value's. -/
theorem byteAt_setBytes_uint {m : Memory} (h : m.wf = true) {w n a : Nat} (v : BitVec w)
    (ha : a + n ≤ Config.frameLen) (b : Nat) :
    byteAt (setBytes m a (uint v) n) b = if a ≤ b ∧ b < a + n then portByte v (b - a) else byteAt m b := by
  rw [byteAt_setBytes h ha, ofNat_div_eq_portByte]

theorem byteAt_frameOfPort (f : FrameWord) {k : Nat} (hk : k < Config.frameLen) :
    byteAt (frameOfPort f) k = portByte f k := by
  rw [frameOfPort, byteAt_setBytes_uint rfl f (by decide), if_pos ⟨Nat.zero_le k, by omega⟩, Nat.sub_zero]

theorem portByte_append_zero {n : Nat} (hi : BitVec n) (b : Byte) : portByte (hi ++ b) 0 = b :=
  BitVec.extractLsb'_append_eq_right

theorem portByte_append_succ {n : Nat} (hi : BitVec n) (b : Byte) (k : Nat) :
    portByte (hi ++ b) (k + 1) = portByte hi k := by
  have hk : 8 * (k + 1) - 8 = 8 * k := by omega
  rw [portByte, portByte, BitVec.extractLsb'_append_eq_of_le (by omega), hk]

/-- Byte `k` of a frame written as its eight bytes. -/
theorem portByte_frame8 (b0 b1 b2 b3 b4 b5 b6 b7 : Byte) :
    portByte (frame8 b0 b1 b2 b3 b4 b5 b6 b7) 0 = b0 ∧ portByte (frame8 b0 b1 b2 b3 b4 b5 b6 b7) 1 = b1 ∧
    portByte (frame8 b0 b1 b2 b3 b4 b5 b6 b7) 2 = b2 ∧ portByte (frame8 b0 b1 b2 b3 b4 b5 b6 b7) 3 = b3 ∧
    portByte (frame8 b0 b1 b2 b3 b4 b5 b6 b7) 4 = b4 ∧ portByte (frame8 b0 b1 b2 b3 b4 b5 b6 b7) 5 = b5 ∧
    portByte (frame8 b0 b1 b2 b3 b4 b5 b6 b7) 6 = b6 ∧ portByte (frame8 b0 b1 b2 b3 b4 b5 b6 b7) 7 = b7 := by
  simp [frame8, portByte_append_zero, portByte_append_succ]

/-! ### Reading a filled frame space -/

/-- A read answers the number whose bytes the space holds there. -/
theorem getBytes_eq_mod {m : Memory} {a n v : Nat} (h : ∀ k < n, byteAt m (a + k) = BitVec.ofNat 8 (v / 256 ^ k)) :
    getBytes m a n = v % 256 ^ n := by
  induction n generalizing a v with
  | zero => simp [getBytes, Nat.mod_one]
  | succ n ih =>
    have hrest : getBytes m (a + 1) n = v / 256 % 256 ^ n := by
      refine ih fun k hk => ?_
      rw [Nat.add_right_comm a 1 k, Nat.add_assoc, h (k + 1) (by omega), Nat.div_div_eq_div_mul, Nat.pow_succ']
    have hlow : uint (byteAt m a) = v % 256 := by
      have := h 0 (by omega)
      simp only [Nat.add_zero, Nat.pow_zero, Nat.div_one] at this
      rw [this, uint, BitVec.toNat_ofNat]
    rw [getBytes, hrest, hlow, Nat.pow_succ', Nat.mod_mul]

/-- 20_memory.md R55: `n` bytes of a received frame are a slice of the port value. -/
theorem getBytes_frameOfPort (f : FrameWord) {a n : Nat} (h : a + n ≤ Config.frameLen) :
    BitVec.ofNat (8 * n) (getBytes (frameOfPort f) a n) = f.extractLsb' (8 * a) (8 * n) := by
  have hbytes : ∀ k < n, byteAt (frameOfPort f) (a + k) = BitVec.ofNat 8 (uint f / 256 ^ a / 256 ^ k) := by
    intro k hk
    rw [byteAt_frameOfPort f (by omega), ← ofNat_div_eq_portByte, Nat.div_div_eq_div_mul, ← Nat.pow_add]
  have hpow (k : Nat) : 256 ^ k = 2 ^ (8 * k) := by rw [Nat.pow_mul]
  apply BitVec.eq_of_toNat_eq
  rw [getBytes_eq_mod hbytes, BitVec.extractLsb'_toNat, BitVec.toNat_ofNat, Nat.shiftRight_eq_div_pow, hpow, hpow,
    Nat.mod_mod, uint]

/-- 20_memory.md R55: the two views of a frame are inverse. -/
@[simp] theorem portOfFrame_frameOfPort (f : FrameWord) : portOfFrame (frameOfPort f) = f :=
  (getBytes_frameOfPort f (Nat.le_of_eq (Nat.zero_add _))).trans BitVec.extractLsb'_eq_self

/-! ### Writing a field: one rule per address and width a format uses (30_encoding.md R81) -/

/-- All that writing `n` bytes into a frame does: frame bytes `a` to `a + n - 1` become the value's bytes. -/
theorem setBytes_frameOfPort {w n a : Nat} {f g : FrameWord} {v : BitVec w} (ha : a + n ≤ Config.frameLen)
    (hg : ∀ k < Config.frameLen, portByte g k = if a ≤ k ∧ k < a + n then portByte v (k - a) else portByte f k) :
    setBytes (frameOfPort f) a (uint v) n = frameOfPort g := by
  have hwf : (setBytes (frameOfPort f) a (uint v) n).wf = true := setBytes_wf (frameOfPort_wf f) ha _
  refine wf_ext hwf (frameOfPort_wf g) fun k => ?_
  by_cases hk : k < Config.frameLen
  · rw [byteAt_setBytes_uint (frameOfPort_wf f) v ha, byteAt_frameOfPort f hk, byteAt_frameOfPort g hk, hg k hk]
  · have hout : Config.frameLen ≤ k := Nat.le_of_not_lt hk
    rw [byteAt_outside hwf hout, byteAt_outside (frameOfPort_wf g) hout]

theorem forall_lt_frameLen {P : Nat → Prop} :
    (∀ k < Config.frameLen, P k) ↔ P 0 ∧ P 1 ∧ P 2 ∧ P 3 ∧ P 4 ∧ P 5 ∧ P 6 ∧ P 7 := by
  simp only [Config.frameLen, Nat.forall_lt_succ_right, Nat.not_lt_zero, false_imp_iff, implies_true, true_and,
    and_assoc]

/-- A fresh `TX` with its opcode (42_encoder.md R150). -/
theorem setBytes_opcode (op : Byte) : setBytes [] 0 (uint op) 1 = frameOfPort (frame8 op 0 0 0 0 0 0 0) :=
  setBytes_frameOfPort (f := 0) (by decide) (forall_lt_frameLen.mpr (by simp [portByte_frame8]))

section
variable (b0 b1 b2 b3 b4 b5 b6 b7 : Byte)

theorem setBytes_one_at_1 (v : Byte) : setBytes (frameOfPort (frame8 b0 b1 b2 b3 b4 b5 b6 b7)) 1 (uint v) 1 =
    frameOfPort (frame8 b0 v b2 b3 b4 b5 b6 b7) :=
  setBytes_frameOfPort (by decide) (forall_lt_frameLen.mpr (by simp [portByte_frame8]))

theorem setBytes_two_at_2 (v : BitVec 16) : setBytes (frameOfPort (frame8 b0 b1 b2 b3 b4 b5 b6 b7)) 2 (uint v) 2 =
    frameOfPort (frame8 b0 b1 (portByte v 0) (portByte v 1) b4 b5 b6 b7) :=
  setBytes_frameOfPort (by decide) (forall_lt_frameLen.mpr (by simp [portByte_frame8]))

theorem setBytes_two_at_4 (v : BitVec 16) : setBytes (frameOfPort (frame8 b0 b1 b2 b3 b4 b5 b6 b7)) 4 (uint v) 2 =
    frameOfPort (frame8 b0 b1 b2 b3 (portByte v 0) (portByte v 1) b6 b7) :=
  setBytes_frameOfPort (by decide) (forall_lt_frameLen.mpr (by simp [portByte_frame8]))

theorem setBytes_two_at_6 (v : BitVec 16) : setBytes (frameOfPort (frame8 b0 b1 b2 b3 b4 b5 b6 b7)) 6 (uint v) 2 =
    frameOfPort (frame8 b0 b1 b2 b3 b4 b5 (portByte v 0) (portByte v 1)) :=
  setBytes_frameOfPort (by decide) (forall_lt_frameLen.mpr (by simp [portByte_frame8]))

theorem setBytes_four_at_4 (v : BitVec 32) : setBytes (frameOfPort (frame8 b0 b1 b2 b3 b4 b5 b6 b7)) 4 (uint v) 4 =
    frameOfPort (frame8 b0 b1 b2 b3 (portByte v 0) (portByte v 1) (portByte v 2) (portByte v 3)) :=
  setBytes_frameOfPort (by decide) (forall_lt_frameLen.mpr (by simp [portByte_frame8]))

end

end Sys2Proof.Machine
end

section
/-! PROOFS. The encoder path as `enc_step` (spec/43_dispatcher.md R190): each command on its port words, the
frame it builds as eight port bytes and the range monitor's verdict as operand bounds. -/

namespace Sys2Proof.Machine

/-! ### Ports and hand-over -/

theorem dirByte_dirOfBit (b : BitVec 1) : dirByte (dirOfBit b) = b.setWidth 8 := by
  revert b; decide

theorem slice_low (a : BitVec 32) : slice a 0 16 = a.setWidth 16 := (BitVec.setWidth_eq_extractLsb' (by decide)).symm

/-- 43_dispatcher.md R183, R186: what the hand-over makes of a frame and the range monitor's verdict. -/
theorem dispatch_frameOfPort (s : State) (f : FrameWord) (b : Bool) :
    s.dispatch (frameOfPort f) b = { s with
      tx := frameOfPort f
      enc := if b ∧ s.params.rangePolicy = .reject then withheldOutputs else sentOutputs f b } := by
  cases b with
  | false =>
    rw [dispatch_inRange, portOfFrame_frameOfPort]
    simp [sentOutputs, Config.busId]
  | true =>
    cases hp : s.params.rangePolicy with
    | wrapSend =>
      rw [dispatch_wrapped _ hp, portOfFrame_frameOfPort]
      simp [sentOutputs, Config.busId]
    | reject =>
      rw [dispatch_withheld _ hp]
      simp [withheldOutputs, EncoderOutputs.idle, Config.busId]

/-! ### The commands on port words (42_encoder.md R151 to R159): the frame built and the range monitor's verdict -/

theorem exec_encoderOffset_ports (a : BitVec 32) (s : State) :
    exec (.encoderOffset (uint (slice a 0 16))) s =
      .next (s.dispatch (frameOfPort (frame8 0x91 0 0 0 0 0 (portByte a 0) (portByte a 1))) false) := by
  simp [exec, execEncoderOffset_eq, setBytes_opcode, setBytes_two_at_6, slice_low, portByte_setWidth]

theorem exec_torqueSetpoint_ports (a : BitVec 32) (s : State) :
    exec (.torqueSetpoint (sint (slice a 0 16))) s =
      .next (s.dispatch (frameOfPort (frame8 0xA1 0 0 0 (portByte a 0) (portByte a 1) 0 0)) false) := by
  simp [exec, execTorqueSetpoint_eq, setBytes_opcode, setBytes_two_at_4, slice_low, portByte_setWidth]

theorem exec_speedSetpoint_ports (a : BitVec 32) (s : State) :
    exec (.speedSetpoint (sint a)) s =
      .next (s.dispatch
        (frameOfPort (frame8 0xA2 0 0 0 (portByte (a * 600) 0) (portByte (a * 600) 1) (portByte (a * 600) 2)
          (portByte (a * 600) 3)))
        (decide (sint a < -3579139 ∨ 3579139 < sint a))) := by
  have hrange : rangeErr [⟨rpmToCdps s.params.divMode (sint a), 32, true⟩] =
      decide (sint a < -3579139 ∨ 3579139 < sint a) := by
    simp [rangeErr_cons, not_fieldFits_rpm32]
  simp only [exec, execSpeedSetpoint_eq, setBytes_opcode, setBytes_four_at_4, trunc_rpmToCdps, trunc_sint, hrange]

theorem exec_positionCtrl1_ports (a : BitVec 32) (s : State) :
    exec (.positionCtrl1 (sint a)) s =
      .next (s.dispatch
        (frameOfPort (frame8 0xA3 0 0 0 (portByte (a * 100) 0) (portByte (a * 100) 1) (portByte (a * 100) 2)
          (portByte (a * 100) 3)))
        (decide (sint a < -21474836 ∨ 21474836 < sint a))) := by
  have hrange : rangeErr [⟨degToCdeg (sint a), 32, true⟩] = decide (sint a < -21474836 ∨ 21474836 < sint a) := by
    simp [rangeErr_cons, not_fieldFits_deg32]
  simp only [exec, execPositionCtrl1_eq, setBytes_opcode, setBytes_four_at_4, trunc_degToCdeg, trunc_sint, hrange]

theorem exec_positionCtrl2_ports (b : BitVec 16) (a : BitVec 32) (s : State) :
    exec (.positionCtrl2 (uint b) (sint a)) s =
      .next (s.dispatch
        (frameOfPort (frame8 0xA4 0 (portByte (b * 600) 0) (portByte (b * 600) 1)
          (portByte (a * 100) 0) (portByte (a * 100) 1) (portByte (a * 100) 2) (portByte (a * 100) 3)))
        (decide (109 < uint b ∨ sint a < -21474836 ∨ 21474836 < sint a))) := by
  have hrange : rangeErr [⟨rpmToCdps s.params.divMode (uint b), 16, false⟩, ⟨degToCdeg (sint a), 32, true⟩] =
      decide (109 < uint b ∨ sint a < -21474836 ∨ 21474836 < sint a) := by
    simp [rangeErr_cons, not_fieldFits_rpm16, not_fieldFits_deg32]
  simp only [exec, execPositionCtrl2_eq, setBytes_opcode, setBytes_two_at_2, setBytes_four_at_4, trunc_rpmToCdps,
    trunc_degToCdeg, trunc_sint, trunc_uint, hrange]

theorem exec_positionCtrl3_ports (a : BitVec 32) (d : BitVec 1) (s : State) :
    exec (.positionCtrl3 (uint (slice a 0 16)) (dirOfBit d)) s =
      .next (s.dispatch
        (frameOfPort (frame8 0xA5 (d.setWidth 8) 0 0
          (portByte (a.setWidth 16 * 100) 0) (portByte (a.setWidth 16 * 100) 1) 0 0))
        (decide (655 < uint (a.setWidth 16)))) := by
  have hrange : rangeErr [⟨degToCdeg (uint (a.setWidth 16)), 16, false⟩] = decide (655 < uint (a.setWidth 16)) := by
    simp [rangeErr_cons, not_fieldFits_deg16]
  simp only [exec, execPositionCtrl3_eq, setBytes_opcode, setBytes_one_at_1, setBytes_two_at_4, trunc_degToCdeg,
    trunc_uint, slice_low, dirByte_dirOfBit, hrange]

theorem exec_positionCtrl4_ports (a : BitVec 32) (b : BitVec 16) (d : BitVec 1) (s : State) :
    exec (.positionCtrl4 (uint (slice a 0 16)) (uint b) (dirOfBit d)) s =
      .next (s.dispatch
        (frameOfPort (frame8 0xA6 (d.setWidth 8) (portByte (b * 600) 0) (portByte (b * 600) 1)
          (portByte (a.setWidth 16 * 100) 0) (portByte (a.setWidth 16 * 100) 1) 0 0))
        (decide (109 < uint b ∨ 655 < uint (a.setWidth 16)))) := by
  have hrange : rangeErr [⟨rpmToCdps s.params.divMode (uint b), 16, false⟩,
      ⟨degToCdeg (uint (a.setWidth 16)), 16, false⟩] = decide (109 < uint b ∨ 655 < uint (a.setWidth 16)) := by
    simp [rangeErr_cons, not_fieldFits_rpm16, not_fieldFits_deg16]
  simp only [exec, execPositionCtrl4_eq, setBytes_opcode, setBytes_one_at_1, setBytes_two_at_2, setBytes_two_at_4,
    trunc_rpmToCdps, trunc_degToCdeg, trunc_uint, slice_low, dirByte_dirOfBit, hrange]

theorem exec_queryMotorStatus_ports (s : State) :
    exec .queryMotorStatus s = .next (s.dispatch (frameOfPort (frame8 0x9C 0 0 0 0 0 0 0)) false) := by
  simp [exec, execQueryMotorStatus_eq, setBytes_opcode]

theorem exec_queryMultiTurnAngle_ports (s : State) :
    exec .queryMultiTurnAngle s = .next (s.dispatch (frameOfPort (frame8 0x92 0 0 0 0 0 0 0)) false) := by
  simp [exec, execQueryMultiTurnAngle_eq, setBytes_opcode]

/-! ### The encoder path (43_dispatcher.md R190) -/

/-- A descriptor with a frame names a command, and the command hands over that frame with the verdict of
43_dispatcher.md R185. -/
theorem exec_of_commandFrame {i : Inputs} {f : FrameWord} (hf : i.commandFrame = some f) :
    ∃ c, decode (.command i.descriptor) = .ok c ∧
      ∀ s, exec c s = .next (s.dispatch (frameOfPort f) i.outOfBounds) := by
  simp only [Inputs.commandFrame] at hf
  simp only [decode, decodeCommand, Inputs.descriptor, Inputs.outOfBounds, uint]
  split at hf
  case h_10 => cases hf
  all_goals
    rename_i hk
    obtain rfl := Option.some.inj hf
    simp only [hk]
  case h_1 => exact ⟨_, rfl, exec_encoderOffset_ports _⟩
  case h_2 => exact ⟨_, rfl, exec_torqueSetpoint_ports _⟩
  case h_3 => exact ⟨_, rfl, exec_speedSetpoint_ports _⟩
  case h_4 => exact ⟨_, rfl, exec_positionCtrl1_ports _⟩
  case h_5 => exact ⟨_, rfl, exec_positionCtrl2_ports _ _⟩
  case h_6 => exact ⟨_, rfl, exec_positionCtrl3_ports _ _⟩
  case h_7 => exact ⟨_, rfl, exec_positionCtrl4_ports _ _ _⟩
  case h_8 => exact ⟨_, rfl, exec_queryMotorStatus_ports⟩
  case h_9 => exact ⟨_, rfl, exec_queryMultiTurnAngle_ports⟩

/-- A descriptor without a frame names no command. -/
theorem decode_of_no_commandFrame {i : Inputs} (hf : i.commandFrame = none) :
    decode (.command i.descriptor) = .error (.illegalKind i.cmdKind) := by
  simp only [Inputs.commandFrame] at hf
  split at hf
  case h_10 h0 h1 h2 h3 h4 h5 h6 h7 h8 =>
    simp only [decode, decodeCommand, Inputs.descriptor, uint]
  all_goals cases hf

/-- `TX` after an instant: the frame of a legal command, else empty (20_memory.md R52; entry 9). -/
def Inputs.txSpace (i : Inputs) : Memory :=
  if i.cmdValid then i.commandFrame.elim [] frameOfPort else []

theorem encStep_idle (p : Config.Params) {i : Inputs} (hv : i.cmdValid = false) :
    encStep p i = EncoderOutputs.idle := by
  simp only [encStep, hv]; rfl

theorem encStep_illegalKind (p : Config.Params) {i : Inputs} (hv : i.cmdValid = true) (hf : i.commandFrame = none) :
    encStep p i = illegalKindOutputs := by
  simp only [encStep, hv, hf, if_true]

theorem encStep_frame (p : Config.Params) {i : Inputs} {f : FrameWord} (hv : i.cmdValid = true)
    (hf : i.commandFrame = some f) :
    encStep p i =
      if i.outOfBounds ∧ p.rangePolicy = .reject then withheldOutputs else sentOutputs f i.outOfBounds := by
  simp only [encStep, hv, hf, if_true]

theorem txSpace_idle {i : Inputs} (hv : i.cmdValid = false) : i.txSpace = [] := by
  simp [Inputs.txSpace, hv]

theorem txSpace_illegalKind {i : Inputs} (hf : i.commandFrame = none) : i.txSpace = [] := by
  simp [Inputs.txSpace, hf]

theorem txSpace_frame {i : Inputs} {f : FrameWord} (hv : i.cmdValid = true) (hf : i.commandFrame = some f) :
    i.txSpace = frameOfPort f := by
  simp [Inputs.txSpace, hv, hf]

/-- The encoder path is `enc_step`, with the frame left in `TX`. -/
theorem encoderPath_eq {s : State} (htx : s.tx = []) (henc : s.enc = EncoderOutputs.idle) :
    encoderPath s = .next { s with tx := s.inp.txSpace, enc := encStep s.params s.inp } := by
  cases hv : s.inp.cmdValid with
  | false => rw [encoderPath_of_no_command hv, encStep_idle _ hv, txSpace_idle hv, ← htx, ← henc]
  | true =>
    cases hf : s.inp.commandFrame with
    | none =>
      rw [encoderPath, if_pos hv, decode_of_no_commandFrame hf, encStep_illegalKind _ hv hf, txSpace_illegalKind hf,
        ← htx]
      rfl
    | some f =>
      obtain ⟨c, hdec, hexec⟩ := exec_of_commandFrame hf
      rw [encoderPath_of_decode hv hdec, hexec, dispatch_frameOfPort, encStep_frame _ hv hf, txSpace_frame hv hf]

end Sys2Proof.Machine
end

section
/-! PROOFS. The decoder path as `dec_step` (spec/44_decoder.md R207): each record as slices of the received frame. -/

namespace Sys2Proof.Machine

/-! ### The records (44_decoder.md R199, R205) -/

theorem motorStatusRecord_frameOfPort (p : Config.Params) (f : FrameWord) :
    motorStatusRecord p (frameOfPort f) = .ok { DecoderOutputs.idle with
      stValid := true
      stTemp := f.extractLsb' 8 8
      stTorque := f.extractLsb' 16 16
      stSpeed := divRounded p.divMode (f.extractLsb' 32 16) 6
      stEnc := f.extractLsb' 48 16
      rxOpcode := f.extractLsb' 0 8 } := by
  have htemp := getBytes_frameOfPort f (a := 1) (n := 1) (by decide)
  have htorque := getBytes_frameOfPort f (a := 2) (n := 2) (by decide)
  have hspeed := getBytes_frameOfPort f (a := 4) (n := 2) (by decide)
  have hencoder := getBytes_frameOfPort f (a := 6) (n := 2) (by decide)
  have hecho := getBytes_frameOfPort f (a := 0) (n := 1) (by decide)
  simp only [Nat.reduceMul] at htemp htorque hspeed hencoder hecho
  simp only [motorStatusRecord_eq, htemp, htorque, hspeed, hencoder, hecho, trunc_wireToRpm_sint, trunc_sint,
    trunc_uint]

theorem multiTurnAngleRecord_frameOfPort (p : Config.Params) (f : FrameWord) :
    multiTurnAngleRecord p (frameOfPort f) = .ok { DecoderOutputs.idle with
      angValid := true
      angDeg := divRounded p.divMode (accumulator p.angleExt (f.extractLsb' 8 56)) 100
      rxOpcode := f.extractLsb' 0 8 } := by
  have hangle := getBytes_frameOfPort f (a := 1) (n := 7) (by decide)
  have hecho := getBytes_frameOfPort f (a := 0) (n := 1) (by decide)
  simp only [Nat.reduceMul] at hangle hecho
  simp only [multiTurnAngleRecord_eq, hangle, hecho, trunc_cdegToDeg_extendAngle]

/-! ### The decoder path (44_decoder.md R207) -/

/-- 44_decoder.md R196: both shapes check the length first. -/
theorem exec_decodeReceived_malformed {r : ReceivedFrame} (hlen : r.len ≠ 8) (s : State) :
    exec (decodeReceived r) s = .next { s with dec := malformedOutputs } := by
  have hne : uint r.len ≠ Config.frameLen := fun h => hlen (BitVec.eq_of_toNat_eq h)
  unfold decodeReceived
  split
  · exact decodeOp_malformed hne _ _ _
  · exact decodeOp_malformed hne _ _ _

theorem decStep_idle (p : Config.Params) {i : Inputs} (hv : i.rxValid = false) :
    decStep p i = DecoderOutputs.idle := by
  simp only [decStep, hv]; rfl

theorem decStep_malformed (p : Config.Params) {i : Inputs} (hv : i.rxValid = true) (hlen : i.rxLen ≠ 8) :
    decStep p i = malformedOutputs := by
  simp only [decStep, hv, hlen, ne_eq, not_false_eq_true, if_true]

theorem decStep_status (p : Config.Params) {i : Inputs} (hv : i.rxValid = true) (hlen : i.rxLen = 8)
    (hshape : i.rxShape = 0) :
    decStep p i = { DecoderOutputs.idle with
      stValid := true
      stTemp := i.rxData.extractLsb' 8 8
      stTorque := i.rxData.extractLsb' 16 16
      stSpeed := divRounded p.divMode (i.rxData.extractLsb' 32 16) 6
      stEnc := i.rxData.extractLsb' 48 16
      rxOpcode := i.rxData.extractLsb' 0 8 } := by
  simp only [decStep, hv, hlen, hshape, ne_eq, not_true_eq_false, if_true, if_false]; rfl

theorem decStep_angle (p : Config.Params) {i : Inputs} (hv : i.rxValid = true) (hlen : i.rxLen = 8)
    (hshape : i.rxShape ≠ 0) :
    decStep p i = { DecoderOutputs.idle with
      angValid := true
      angDeg := divRounded p.divMode (accumulator p.angleExt (i.rxData.extractLsb' 8 56)) 100
      rxOpcode := i.rxData.extractLsb' 0 8 } := by
  simp only [decStep, hv, hlen, hshape, ne_eq, not_true_eq_false, if_true, if_false]; rfl

/-- 44_decoder.md R199, R205: a frame of eight bytes fills `RX` and gives the record of its shape. -/
theorem exec_decodeReceived_eight {i : Inputs} (hv : i.rxValid = true) (hlen : i.rxLen = 8) (s : State) :
    exec (decodeReceived i.received) s = .next { s with rx := frameOfPort i.rxData, dec := decStep s.params i } := by
  have hl : uint i.received.len = 8 := congrArg uint hlen
  unfold decodeReceived
  rw [hl]
  split
  · next hshape =>
    rw [decStep_status _ hv hlen hshape]
    exact decodeOp_eight _ (motorStatusRecord_frameOfPort _ _)
  · next hshape =>
    rw [decStep_angle _ hv hlen hshape]
    exact decodeOp_eight _ (multiTurnAngleRecord_frameOfPort _ _)

/-- `RX` after an instant: the received frame where it has eight bytes, else empty (20_memory.md R53; entry 9). -/
def Inputs.rxSpace (i : Inputs) : Memory :=
  if i.rxValid ∧ i.rxLen = 8 then frameOfPort i.rxData else []

theorem rxSpace_filled {i : Inputs} (hv : i.rxValid = true) (hlen : i.rxLen = 8) :
    i.rxSpace = frameOfPort i.rxData := if_pos ⟨hv, hlen⟩

theorem rxSpace_idle {i : Inputs} (hv : i.rxValid = false) : i.rxSpace = [] := by
  simp [Inputs.rxSpace, hv]

theorem rxSpace_malformed {i : Inputs} (hlen : i.rxLen ≠ 8) : i.rxSpace = [] := if_neg fun h => hlen h.2

/-- The decoder path is `dec_step`, with the frame left in `RX`. -/
theorem decoderPath_eq {s : State} (hrx : s.rx = []) (hdec : s.dec = DecoderOutputs.idle) :
    decoderPath s = .next { s with rx := s.inp.rxSpace, dec := decStep s.params s.inp } := by
  cases hv : s.inp.rxValid with
  | false => rw [decoderPath_of_no_frame hv, decStep_idle _ hv, rxSpace_idle hv, ← hrx, ← hdec]
  | true =>
    rw [decoderPath, if_pos hv]
    by_cases hlen : s.inp.rxLen = 8
    · rw [exec_decodeReceived_eight hv hlen, rxSpace_filled hv hlen]
    · rw [exec_decodeReceived_malformed hlen, decStep_malformed _ hv hlen, rxSpace_malformed hlen, ← hrx]

end Sys2Proof.Machine
end

section
/-! PROOFS. The step in closed form, a function of the parameters and the presented inputs alone (spec/10_state.md R21),
and the statements about every sampling instant that follow from it. -/

namespace Sys2Proof.Machine

/-! ### The step -/

/-- The sampling instant of given parameters and port values (00_scope.md R15). -/
def instantOf (p : Config.Params) (i : Inputs) (rest : List Inputs) : State :=
  { params := p, inp := i, tx := i.txSpace, rx := i.rxSpace, enc := encStep p i, dec := decStep p i,
    errTransport := transportValue p i, upcoming := rest }

/-- All a step does (10_state.md R21): from the state before, it keeps the parameters and what is still to come. -/
theorem step_eq_instantOf (s : State) :
    step s = .next (instantOf s.params (s.upcoming.headD Inputs.idle) s.upcoming.tail) := by
  rw [step, encoderPath_eq (sample_tx s) (sample_enc s), andThen_next]
  exact decoderPath_eq (sample_rx s) (sample_dec s)

theorem step_of_cons {s : State} {i : Inputs} {rest : List Inputs} (h : s.upcoming = i :: rest) :
    step s = .next (instantOf s.params i rest) := by
  rw [step_eq_instantOf, h]; rfl

/-- The state after a step with port values presented. -/
theorem eq_instantOf_of_step {s t : State} {i : Inputs} {rest : List Inputs} (h : s.upcoming = i :: rest)
    (ht : step s = .next t) : t = instantOf s.params i rest :=
  (Host.Outcome.next.inj ((step_of_cons h).symm.trans ht)).symm

theorem instantOf_outputs (p : Config.Params) (i : Inputs) (rest : List Inputs) :
    (instantOf p i rest).outputs = outputsOf p i := rfl

theorem trace_of_cons {s : State} {i : Inputs} {rest : List Inputs} (h : s.upcoming = i :: rest) (n : Nat) :
    trace (n + 1) s = instantOf s.params i rest :: trace n (instantOf s.params i rest) := by
  rw [trace, step_of_cons h]

/-- Settles O21, by induction on the length of the run. -/
theorem runMatchesSpecFunctions : Obligations.RunMatchesSpecFunctions := by
  intro n
  induction n with
  | zero => intro s _; rfl
  | succ n ih =>
    intro s hn
    obtain ⟨i, rest, hs⟩ := List.exists_cons_of_length_pos (Nat.lt_of_lt_of_le n.succ_pos hn)
    have hrest : n ≤ rest.length := by simpa [hs] using hn
    have htail : (trace n (instantOf s.params i rest)).map State.outputs = (rest.take n).map (outputsOf s.params) :=
      ih (instantOf s.params i rest) hrest
    rw [trace_of_cons hs, hs, List.map_cons, List.take_succ_cons, List.map_cons, instantOf_outputs, htail]

/-- Settles O29: both steps give the same closed form. -/
theorem noStateBetweenTransactions : Obligations.NoStateBetweenTransactions := by
  intro s s' t t' i rest rest' hp hs hs' ht ht'
  rw [eq_instantOf_of_step hs ht, eq_instantOf_of_step hs' ht', hp]
  exact ⟨rfl, rfl, rfl⟩

/-! ### Which inputs are read (10_state.md R26, R28, R33) -/

theorem portByte_congr_low {a b : BitVec 32} (h : a.setWidth 16 = b.setWidth 16) :
    portByte a 0 = portByte b 0 ∧ portByte a 1 = portByte b 1 := by
  have hbyte (k : Nat) (hk : 8 * k + 8 ≤ 16) : portByte a k = portByte b k := by
    rw [← portByte_setWidth a hk, h, portByte_setWidth b hk]
  exact ⟨hbyte 0 (by decide), hbyte 1 (by decide)⟩

/-- The frame and the range flag of a command take nothing from a port its kind does not read. -/
theorem commandFrame_congr {i j : Inputs} (hv : i.cmdValid = true) (h : sameCommandRead i j) :
    i.commandFrame = j.commandFrame ∧ i.outOfBounds = j.outOfBounds := by
  obtain ⟨hkind, hword, hlow, hlimit, hdir⟩ := h.2 hv
  simp only [Inputs.commandFrame, Inputs.outOfBounds, ← hkind]
  split
  all_goals
    rename_i hk
    simp only [hk] at hword hlow hlimit hdir ⊢
  case h_1 | h_2 =>
    obtain ⟨h0, h1⟩ := portByte_congr_low (hlow (by decide))
    simp only [h0, h1, and_self]
  case h_3 | h_4 => simp only [hword (by decide), and_self]
  case h_5 => simp only [hword (by decide), hlimit (by decide), and_self]
  case h_6 => simp only [hlow (by decide), hdir (by decide), and_self]
  case h_7 => simp only [hlow (by decide), hlimit (by decide), hdir (by decide), and_self]
  case h_8 | h_9 | h_10 => simp only [and_self]

theorem encStep_congr (p : Config.Params) {i j : Inputs} (h : sameCommandRead i j) : encStep p i = encStep p j := by
  have hvj : i.cmdValid = j.cmdValid := h.1
  cases hv : i.cmdValid with
  | false => rw [encStep_idle p hv, encStep_idle p (hvj ▸ hv)]
  | true =>
    obtain ⟨hframe, hbounds⟩ := commandFrame_congr hv h
    simp only [encStep, hvj, hframe, hbounds]

theorem decStep_congr (p : Config.Params) {i j : Inputs} (h : sameFrameRead i j) : decStep p i = decStep p j := by
  obtain ⟨hvj, hread⟩ := h
  cases hv : i.rxValid with
  | false => rw [decStep_idle p hv, decStep_idle p (hvj ▸ hv)]
  | true =>
    obtain ⟨hlenj, hframe⟩ := hread hv
    by_cases hlen : i.rxLen = 8
    · obtain ⟨hshape, hdata⟩ := hframe hlen
      simp only [decStep, hvj, hlenj, hshape, hdata]
    · rw [decStep_malformed p hv hlen, decStep_malformed p (hvj ▸ hv) (hlenj ▸ hlen)]

/-- Settles O28: a step has a closed form, each part of which reads the ports of its own path. -/
theorem unreadInputsDoNotMatter : Obligations.UnreadInputsDoNotMatter := by
  intro s s' t t' i j rest rest' hp hs hs' ht ht'
  rw [eq_instantOf_of_step hs ht, eq_instantOf_of_step hs' ht', hp]
  refine ⟨encStep_congr _, decStep_congr _, fun htp => ?_⟩
  change transportValue _ i = transportValue _ j
  rw [transportValue, transportValue, htp]

/-! ### The invariant of a sampling instant -/

/-- The encoder half of `State.Inv`. -/
structure EncoderInv (i : Inputs) (tx : Memory) (enc : EncoderOutputs) : Prop where
  tx_wf : tx.wf = true
  tx_id : enc.txId = 0x0141
  sent_frame : enc.txValid = true → enc.txData = portOfFrame tx
  unsent_zero : enc.txValid = false → enc.txData = 0
  command_answered : i.cmdValid = true → enc.txValid = true ∨ enc.errKind = true ∨ enc.errRange = true
  encoder_idle : i.cmdValid = false → enc.txValid = false ∧ enc.errKind = false ∧ enc.errRange = false
  illegal_kind_alone : enc.errKind = true → enc.txValid = false ∧ enc.errRange = false

/-- The decoder half of `State.Inv`. -/
structure DecoderInv (i : Inputs) (rx : Memory) (dec : DecoderOutputs) : Prop where
  rx_wf : rx.wf = true
  decoder_answers : dec.stValid.toNat + dec.angValid.toNat + dec.errMalformed.toNat = i.rxValid.toNat
  status_zero : dec.stValid = false → dec.stTemp = 0 ∧ dec.stTorque = 0 ∧ dec.stSpeed = 0 ∧ dec.stEnc = 0
  angle_zero : dec.angValid = false → dec.angDeg = 0
  opcode_zero : dec.stValid = false → dec.angValid = false → dec.rxOpcode = 0

theorem encStep_encoderInv (p : Config.Params) (i : Inputs) : EncoderInv i i.txSpace (encStep p i) := by
  cases hv : i.cmdValid with
  | false =>
    rw [txSpace_idle hv, encStep_idle p hv]
    constructor <;> simp [EncoderOutputs.idle, Config.busId, hv, Memory.wf, Memory.wfFrom]
  | true =>
    cases hf : i.commandFrame with
    | none =>
      rw [txSpace_illegalKind hf, encStep_illegalKind p hv hf]
      constructor <;> simp [illegalKindOutputs, hv, Memory.wf, Memory.wfFrom]
    | some f =>
      rw [txSpace_frame hv hf, encStep_frame p hv hf]
      split
      · constructor <;> simp [withheldOutputs, hv, frameOfPort_wf]
      · constructor <;> simp [sentOutputs, hv, frameOfPort_wf]

theorem decStep_decoderInv (p : Config.Params) (i : Inputs) : DecoderInv i i.rxSpace (decStep p i) := by
  cases hv : i.rxValid with
  | false =>
    rw [rxSpace_idle hv, decStep_idle p hv]
    constructor <;> simp [DecoderOutputs.idle, hv, Memory.wf, Memory.wfFrom]
  | true =>
    by_cases hlen : i.rxLen = 8
    · rw [rxSpace_filled hv hlen]
      by_cases hshape : i.rxShape = 0
      · rw [decStep_status p hv hlen hshape]
        constructor <;> simp [DecoderOutputs.idle, hv, frameOfPort_wf]
      · rw [decStep_angle p hv hlen hshape]
        constructor <;> simp [DecoderOutputs.idle, hv, frameOfPort_wf]
    · rw [rxSpace_malformed hlen, decStep_malformed p hv hlen]
      constructor <;> simp [malformedOutputs, hv, Memory.wf, Memory.wfFrom]

/-- 60_exceptions.md R226: a value that fits the port passes through whole. -/
theorem transportValue_of_legal {p : Config.Params} {i : Inputs} (h : i.legal p) : transportValue p i = i.tpErr :=
  Nat.mod_eq_of_lt h

theorem instantOf_inv {p : Config.Params} {i : Inputs} {rest : List Inputs} (hp : Config.paramsLegal p)
    (hi : i.legal p) (hrest : ∀ j ∈ rest, j.legal p) : (instantOf p i rest).Inv :=
  { encStep_encoderInv p i, decStep_decoderInv p i with
    params_legal := hp
    inp_legal := hi
    upcoming_legal := hrest
    transport := transportValue_of_legal hi }

/-- The port values of the next instant are legal, at the end of the listing too. -/
theorem headD_legal {p : Config.Params} {l : List Inputs} (h : ∀ i ∈ l, i.legal p) :
    (l.headD Inputs.idle).legal p := by
  cases l with
  | nil => exact Nat.two_pow_pos p.tpw
  | cons i rest => exact h i List.mem_cons_self

/-- Settles O31: the closed form of a step meets every clause, and the ports stay legal. -/
theorem everyStepKeepsInv : Obligations.EveryStepKeepsInv := by
  intro s t hs ht
  obtain rfl := Host.Outcome.next.inj ((step_eq_instantOf s).symm.trans ht)
  exact instantOf_inv hs.params_legal (headD_legal hs.upcoming_legal)
    fun i hi => hs.upcoming_legal i (List.mem_of_mem_tail hi)

end Sys2Proof.Machine
end

section
/-! PROOFS. The port value of any frame space (spec/20_memory.md R55): the sum of the bytes at their weights, and the
inverse of filling a frame space from a port. -/

namespace Sys2Proof.Machine

/-! ### From the bytes to the port -/

/-- A read is the sum of its bytes at their weights, the lowest address the least significant (00_scope.md R13). -/
theorem getBytes_eq_sum (m : Memory) (a n : Nat) :
    getBytes m a n = ∑ i ∈ Finset.range n, (byteAt m (a + i)).toNat * 2 ^ (8 * i) := by
  induction n generalizing a with
  | zero => rfl
  | succ n ih =>
    rw [getBytes, ih, Finset.sum_range_succ', Finset.mul_sum, Nat.add_comm]
    congr 1
    · refine Finset.sum_congr rfl fun i _ => ?_
      rw [Nat.add_right_comm a 1 i, Nat.add_assoc, Nat.mul_succ, Nat.pow_add]
      ring
    · simp [uint]

/-- Byte `k` of a read is the byte at the `k`-th address read. -/
theorem ofNat_getBytes_div (m : Memory) {a n k : Nat} (hk : k < n) :
    BitVec.ofNat 8 (getBytes m a n / 256 ^ k) = byteAt m (a + k) := by
  induction n generalizing a k with
  | zero => exact absurd hk (Nat.not_lt_zero k)
  | succ n ih =>
    have hbyte : uint (byteAt m a) < 256 := (byteAt m a).isLt
    cases k with
    | zero =>
      apply BitVec.eq_of_toNat_eq
      rw [BitVec.toNat_ofNat, getBytes, Nat.pow_zero, Nat.div_one, Nat.add_mul_mod_self_left]
      exact Nat.mod_eq_of_lt hbyte
    | succ k =>
      have hrest : getBytes m a (n + 1) / 256 = getBytes m (a + 1) n := by rw [getBytes]; omega
      rw [Nat.pow_succ', ← Nat.div_div_eq_div_mul, hrest, ih (by omega), Nat.add_right_comm, Nat.add_assoc]

/-- Eight bytes fit the port. -/
theorem portOfFrame_toNat (m : Memory) : (portOfFrame m).toNat = getBytes m 0 Config.frameLen := by
  rw [portOfFrame, BitVec.toNat_ofNat]
  exact Nat.mod_eq_of_lt (getBytes_lt m 0 Config.frameLen)

theorem portByte_portOfFrame (m : Memory) {k : Nat} (hk : k < Config.frameLen) :
    portByte (portOfFrame m) k = byteAt m k := by
  rw [← ofNat_div_eq_portByte, uint, portOfFrame_toNat, ofNat_getBytes_div m hk, Nat.zero_add]

/-! ### From the port to the bytes and back -/

/-- Every byte of a filled frame space: the lanes of the port, and 0 outside the frame (20_memory.md R51). -/
theorem byteAt_frameOfPort_eq_lane (f : FrameWord) (a : Nat) :
    byteAt (frameOfPort f) a = if a < 8 then lane f a else 0 := by
  split
  · next ha => exact byteAt_frameOfPort f ha
  · next ha => exact byteAt_outside (frameOfPort_wf f) (Nat.le_of_not_lt ha)

/-- A canonical frame space is the one its port value fills. -/
theorem frameOfPort_portOfFrame {m : Memory} (h : m.wf = true) : frameOfPort (portOfFrame m) = m := by
  refine wf_ext (frameOfPort_wf _) h fun a => ?_
  rw [byteAt_frameOfPort_eq_lane]
  split
  · next ha => exact portByte_portOfFrame m ha
  · next ha => exact (byteAt_outside h (Nat.le_of_not_lt ha)).symm

/-- A field read from a filled frame space is a slice of the port, with no byte swapped. -/
theorem memRead_frameOfPort (f : FrameWord) {a n : Nat} (h : a + n ≤ Config.frameLen) :
    memRead (frameOfPort f) a n = .ok (f.extractLsb' (8 * a) (8 * n)).toNat := by
  have hfits : getBytes (frameOfPort f) a n < 2 ^ (8 * n) := by
    rw [Nat.pow_mul]
    exact getBytes_lt _ a n
  rw [memRead_inside h, ← getBytes_frameOfPort f h, BitVec.toNat_ofNat, Nat.mod_eq_of_lt hfits]

/-- Settles O47: each clause is one of the views above, the weights those of a read of the whole frame. -/
theorem framePortsAreLittleEndian : Obligations.FramePortsAreLittleEndian := by
  refine ⟨fun f _ ha => byteAt_frameOfPort f ha, fun m _ ha => portByte_portOfFrame m ha, portOfFrame_frameOfPort,
    fun _ hm => frameOfPort_portOfFrame hm, fun m => ?weights, fun f _ _ h => memRead_frameOfPort f h⟩
  rw [portOfFrame_toNat, getBytes_eq_sum]
  simp only [Nat.zero_add]
  rfl

end Sys2Proof.Machine
end

section
/-! PROOFS. What an instruction leaves in the frame spaces (spec/20_memory.md R51 to R53): the frame of each command as
its eight bytes, the command as the hand-over of that frame, and the frame conditions of both paths. -/

namespace Sys2Proof.Machine

/-! ### Bytes of a frame written as one number (30_encoding.md R81) -/

@[simp] theorem portByte_or (f g : FrameWord) (k : Nat) : portByte (f ||| g) k = portByte f k ||| portByte g k :=
  BitVec.extractLsb'_or

/-- A frame number that is an opcode alone. -/
@[simp] theorem portByte_opcode {op : Nat} (hop : op < 256) (k : Nat) :
    portByte (BitVec.ofNat 64 op) k = if k = 0 then BitVec.ofNat 8 op else 0 := by
  rw [← ofNat_div_eq_portByte, uint, BitVec.toNat_ofNat, Nat.mod_eq_of_lt (by omega)]
  split
  · next hk => rw [hk, Nat.pow_zero, Nat.div_one]
  · next hk =>
    have hpow : 256 ≤ 256 ^ k := Nat.le_self_pow hk 256
    rw [Nat.div_eq_of_lt (by omega)]
    rfl

/-- A field shifted to byte `lo / 8` of a frame: zero below it, its own bytes from there on. -/
@[simp] theorem portByte_zext_shiftLeft {w lo k : Nat} (v : BitVec w) (hlo : 8 ∣ lo) (hk : k < 8) :
    portByte (zext 64 v <<< lo) k = if 8 * k < lo then 0 else portByte v (k - lo / 8) := by
  obtain ⟨a, rfl⟩ := hlo
  apply BitVec.eq_of_getLsbD_eq
  intro j hj
  split
  · next hbelow =>
    have hshift : 8 * k + j < 8 * a := by omega
    simp [portByte, zext, hj, hshift]
  · next habove =>
    have hbit : 8 * k + j - 8 * a = 8 * (k - a) + j := by omega
    have hshift : ¬8 * k + j < 8 * a := by omega
    have hport : 8 * k + j < 64 := by omega
    simp [portByte, zext, hj, hshift, hport, hbit]

/-- Above its width a field has no bytes. -/
@[simp] theorem portByte_above {w k : Nat} (v : BitVec w) (hk : w ≤ 8 * k) : portByte v k = 0 := by
  apply BitVec.eq_of_getLsbD_eq
  intro j hj
  simp [portByte, hj, BitVec.getLsbD_of_ge v (8 * k + j) (by omega)]

/-- Two frames with the same eight bytes are equal. -/
theorem frameWord_ext {f g : FrameWord} (h : ∀ k < Config.frameLen, portByte f k = portByte g k) : f = g := by
  have hspaces : frameOfPort f = frameOfPort g := by
    refine wf_ext (frameOfPort_wf f) (frameOfPort_wf g) fun a => ?_
    rw [byteAt_frameOfPort_eq_lane, byteAt_frameOfPort_eq_lane]
    split
    · next ha => exact h a ha
    · rfl
  rw [← portOfFrame_frameOfPort f, hspaces, portOfFrame_frameOfPort]

@[simp] theorem portByte_place {n lo k : Nat} (v : Int) (hlo : 8 ∣ lo) (hk : k < 8) :
    portByte (place n lo v) k = if 8 * k < lo then 0 else portByte (trunc n v) (k - lo / 8) :=
  portByte_zext_shiftLeft (trunc n v) hlo hk

/-- The direction on the wire is a byte of its own (41_serializer.md R132). -/
@[simp] theorem portByte_dirBit (dir : Direction) : portByte (dirBit dir) 0 = dirByte dir := by
  cases dir <;> decide

/-! ### The frame of each command as its eight bytes (30_encoding.md R81) -/

/-- A frame is known by its eight bytes. -/
theorem eq_frame8 {f : FrameWord} {b0 b1 b2 b3 b4 b5 b6 b7 : Byte}
    (h : portByte f 0 = b0 ∧ portByte f 1 = b1 ∧ portByte f 2 = b2 ∧ portByte f 3 = b3 ∧
      portByte f 4 = b4 ∧ portByte f 5 = b5 ∧ portByte f 6 = b6 ∧ portByte f 7 = b7) :
    f = frame8 b0 b1 b2 b3 b4 b5 b6 b7 :=
  frameWord_ext (forall_lt_frameLen.mpr (by simpa only [portByte_frame8] using h))

theorem encodeFrame_encoderOffset (offset : Nat) :
    encodeFrame (.encoderOffset offset) =
      frame8 0x91 0 0 0 0 0 (portByte (trunc 16 offset) 0) (portByte (trunc 16 offset) 1) :=
  eq_frame8 (by simp [encodeFrame])

theorem encodeFrame_torqueSetpoint (current : Int) :
    encodeFrame (.torqueSetpoint current) =
      frame8 0xA1 0 0 0 (portByte (trunc 16 current) 0) (portByte (trunc 16 current) 1) 0 0 :=
  eq_frame8 (by simp [encodeFrame])

theorem encodeFrame_speedSetpoint (rpm : Int) :
    encodeFrame (.speedSetpoint rpm) =
      let speed := trunc 32 (cdpsPerRpm * rpm)
      frame8 0xA2 0 0 0 (portByte speed 0) (portByte speed 1) (portByte speed 2) (portByte speed 3) :=
  eq_frame8 (by simp [encodeFrame])

theorem encodeFrame_positionCtrl1 (degrees : Int) :
    encodeFrame (.positionCtrl1 degrees) =
      let pos := trunc 32 (cdegPerDeg * degrees)
      frame8 0xA3 0 0 0 (portByte pos 0) (portByte pos 1) (portByte pos 2) (portByte pos 3) :=
  eq_frame8 (by simp [encodeFrame])

theorem encodeFrame_positionCtrl2 (limit : Nat) (degrees : Int) :
    encodeFrame (.positionCtrl2 limit degrees) =
      let speed := trunc 16 (cdpsPerRpm * limit)
      let pos := trunc 32 (cdegPerDeg * degrees)
      frame8 0xA4 0 (portByte speed 0) (portByte speed 1)
        (portByte pos 0) (portByte pos 1) (portByte pos 2) (portByte pos 3) :=
  eq_frame8 (by simp [encodeFrame])

theorem encodeFrame_positionCtrl3 (degrees : Nat) (dir : Direction) :
    encodeFrame (.positionCtrl3 degrees dir) =
      let pos := trunc 16 (cdegPerDeg * degrees)
      frame8 0xA5 (dirByte dir) 0 0 (portByte pos 0) (portByte pos 1) 0 0 :=
  eq_frame8 (by simp [encodeFrame])

theorem encodeFrame_positionCtrl4 (degrees limit : Nat) (dir : Direction) :
    encodeFrame (.positionCtrl4 degrees limit dir) =
      let speed := trunc 16 (cdpsPerRpm * limit)
      let pos := trunc 16 (cdegPerDeg * degrees)
      frame8 0xA6 (dirByte dir) (portByte speed 0) (portByte speed 1) (portByte pos 0) (portByte pos 1) 0 0 :=
  eq_frame8 (by simp [encodeFrame])

theorem encodeFrame_queryMotorStatus : encodeFrame .queryMotorStatus = frame8 0x9C 0 0 0 0 0 0 0 :=
  eq_frame8 (by simp [encodeFrame])

theorem encodeFrame_queryMultiTurnAngle : encodeFrame .queryMultiTurnAngle = frame8 0x92 0 0 0 0 0 0 0 :=
  eq_frame8 (by simp [encodeFrame])

/-! ### What each instruction does to the state -/

theorem trunc_rpmToCdps_eq_trunc_cdpsPerRpm_mul (n : Nat) (mode : Config.DivMode) (rpm : Int) :
    trunc n (rpmToCdps mode rpm) = trunc n (cdpsPerRpm * rpm) := by
  rw [rpmToCdps_eq_mul, cdpsPerRpm, Int.mul_comm]

theorem trunc_degToCdeg_eq_trunc_cdegPerDeg_mul (n : Nat) (degrees : Int) :
    trunc n (degToCdeg degrees) = trunc n (cdegPerDeg * degrees) := by
  rw [degToCdeg, cdegPerDeg, Int.mul_comm]

/-- 42_encoder.md R150, 43_dispatcher.md R180, R185: a command hands over its frame with its operands' verdict, in every
state and with any operands. -/
theorem exec_command {i : Instr} (hi : isCommand i = true) (s : State) :
    exec i s = .next (s.dispatch (frameOfPort (encodeFrame i)) (operandsOutOfBounds i)) := by
  cases i
  case encoderOffset offset =>
    simp only [exec, execEncoderOffset_eq, setBytes_opcode, setBytes_two_at_6, encodeFrame_encoderOffset,
      rangeErr_nil, operandsOutOfBounds]
  case torqueSetpoint current =>
    simp only [exec, execTorqueSetpoint_eq, setBytes_opcode, setBytes_two_at_4, encodeFrame_torqueSetpoint,
      rangeErr_nil, operandsOutOfBounds]
  case speedSetpoint rpm =>
    have hrange : rangeErr [⟨rpmToCdps s.params.divMode rpm, 32, true⟩] =
        operandsOutOfBounds (.speedSetpoint rpm) := by
      simp [rangeErr_cons, not_fieldFits_rpm32, operandsOutOfBounds]
    simp only [exec, execSpeedSetpoint_eq, hrange, setBytes_opcode, setBytes_four_at_4, encodeFrame_speedSetpoint,
      trunc_rpmToCdps_eq_trunc_cdpsPerRpm_mul]
  case positionCtrl1 degrees =>
    have hrange : rangeErr [⟨degToCdeg degrees, 32, true⟩] = operandsOutOfBounds (.positionCtrl1 degrees) := by
      simp [rangeErr_cons, not_fieldFits_deg32, operandsOutOfBounds]
    simp only [exec, execPositionCtrl1_eq, hrange, setBytes_opcode, setBytes_four_at_4, encodeFrame_positionCtrl1,
      trunc_degToCdeg_eq_trunc_cdegPerDeg_mul]
  case positionCtrl2 limit degrees =>
    have hrange : rangeErr [⟨rpmToCdps s.params.divMode limit, 16, false⟩, ⟨degToCdeg degrees, 32, true⟩] =
        operandsOutOfBounds (.positionCtrl2 limit degrees) := by
      simp [rangeErr_cons, not_fieldFits_rpm16, not_fieldFits_deg32, operandsOutOfBounds]
    simp only [exec, execPositionCtrl2_eq, hrange, setBytes_opcode, setBytes_two_at_2, setBytes_four_at_4,
      encodeFrame_positionCtrl2, trunc_rpmToCdps_eq_trunc_cdpsPerRpm_mul,
      trunc_degToCdeg_eq_trunc_cdegPerDeg_mul]
  case positionCtrl3 degrees dir =>
    have hrange : rangeErr [⟨degToCdeg degrees, 16, false⟩] = operandsOutOfBounds (.positionCtrl3 degrees dir) := by
      simp [rangeErr_cons, not_fieldFits_deg16, operandsOutOfBounds]
    simp only [exec, execPositionCtrl3_eq, hrange, setBytes_opcode, setBytes_one_at_1, setBytes_two_at_4,
      encodeFrame_positionCtrl3, trunc_degToCdeg_eq_trunc_cdegPerDeg_mul]
  case positionCtrl4 degrees limit dir =>
    have hrange : rangeErr [⟨rpmToCdps s.params.divMode limit, 16, false⟩, ⟨degToCdeg degrees, 16, false⟩] =
        operandsOutOfBounds (.positionCtrl4 degrees limit dir) := by
      simp [rangeErr_cons, not_fieldFits_rpm16, not_fieldFits_deg16, operandsOutOfBounds]
    simp only [exec, execPositionCtrl4_eq, hrange, setBytes_opcode, setBytes_one_at_1, setBytes_two_at_2,
      setBytes_two_at_4, encodeFrame_positionCtrl4, trunc_rpmToCdps_eq_trunc_cdpsPerRpm_mul,
      trunc_degToCdeg_eq_trunc_cdegPerDeg_mul]
  case queryMotorStatus =>
    simp only [exec, execQueryMotorStatus_eq, setBytes_opcode, encodeFrame_queryMotorStatus,
      rangeErr_nil, operandsOutOfBounds]
  case queryMultiTurnAngle =>
    simp only [exec, execQueryMultiTurnAngle_eq, setBytes_opcode, encodeFrame_queryMultiTurnAngle,
      rangeErr_nil, operandsOutOfBounds]
  case motorStatus len data => exact absurd hi Bool.false_ne_true
  case multiTurnAngle len data => exact absurd hi Bool.false_ne_true

/-- 44_decoder.md R196: a decode operation whose record can be read goes on, whatever the length. -/
theorem decodeOp_goesOn {record : Config.Params → Memory → Except Fault DecoderOutputs} {out : DecoderOutputs}
    {data : FrameWord} {s : State} (h : record s.params (frameOfPort data) = .ok out) (len : Nat) :
    ∃ t, decodeOp len data record s = .next t := by
  by_cases hlen : len = Config.frameLen
  · subst hlen
    exact ⟨_, decodeOp_eight data h⟩
  · exact ⟨_, decodeOp_malformed hlen data record s⟩

/-- 20_memory.md R51, R53: what a decode operation leaves in the state, whatever record it reads. -/
theorem decodeOp_changes_only {len : Nat} {data : FrameWord}
    {record : Config.Params → Memory → Except Fault DecoderOutputs} {s t : State}
    (h : decodeOp len data record s = .next t) :
    t = { s with rx := t.rx, dec := t.dec } ∧ t.tx = s.tx ∧ t.rx = if len = 8 then frameOfPort data else s.rx := by
  rcases decodeOp_next h with ⟨hlen, rfl⟩ | ⟨hlen, out, -, rfl⟩
  · exact ⟨rfl, rfl, (if_neg hlen).symm⟩
  · exact ⟨rfl, rfl, (if_pos hlen).symm⟩

/-! ### The statements -/

/-- Settles O12: a command is the hand-over of its frame. -/
theorem encodeOperationsChangeOnlyTheEncoderSide : Obligations.EncodeOperationsChangeOnlyTheEncoderSide := by
  intro i s t hi ht
  obtain rfl := Host.Outcome.next.inj ((exec_command hi s).symm.trans ht)
  rw [dispatch_frameOfPort]
  exact ⟨rfl, frameOfPort_wf _, byteAt_frameOfPort_eq_lane _, fun _ => rfl⟩

/-- Settles O13: both decode operations have the one shape, and `TX` is no part of what it writes. -/
theorem decodeOperationsChangeOnlyTheDecoderSide : Obligations.DecodeOperationsChangeOnlyTheDecoderSide := by
  intro len data s t ht
  obtain ⟨hframe, htx, hrx⟩ := ht.elim decodeOp_changes_only decodeOp_changes_only
  refine ⟨hframe, fun a => by rw [htx], fun a => ?_⟩
  rw [hrx]
  split
  · exact byteAt_frameOfPort_eq_lane data a
  · rfl

/-- Settles O14: a command hands over its frame, a decode operation reads its record or raises `MalformedFrame`. -/
theorem noInstructionStops : Obligations.NoInstructionStops := by
  intro i s
  cases i
  case motorStatus len data => exact decodeOp_goesOn (motorStatusRecord_frameOfPort _ data) len
  case multiTurnAngle len data => exact decodeOp_goesOn (multiTurnAngleRecord_frameOfPort _ data) len
  all_goals exact ⟨_, exec_command rfl s⟩

end Sys2Proof.Machine
end

section
/-! PROOFS. The descriptor on the ports (spec/30_encoding.md R86, R87, R97): an operand of its type survives the port
it is presented on, and every port value is an operand of its type. -/

namespace Sys2Proof.Machine

/-! ### Operand types (00_scope.md R11) -/

theorem isU16_iff {n : Nat} : isU16 n = true ↔ n < 2 ^ 16 := decide_eq_true_iff

theorem isI16_iff {v : Int} : isI16 v = true ↔ -(2 ^ 15) ≤ v ∧ v < 2 ^ 15 := by simp [isI16]

theorem isI32_iff {v : Int} : isI32 v = true ↔ -(2 ^ 31) ≤ v ∧ v < 2 ^ 31 := by simp [isI32]

theorem isLen_iff {n : Nat} : isLen n = true ↔ n < 2 ^ 4 := decide_eq_true_iff

/-! ### Every port value is an operand of its type -/

theorem isU16_uint (b : BitVec 16) : isU16 (uint b) = true := isU16_iff.mpr b.isLt

theorem isI16_sint (b : BitVec 16) : isI16 (sint b) = true := isI16_iff.mpr ⟨b.le_toInt, b.toInt_lt⟩

theorem isI32_sint (b : BitVec 32) : isI32 (sint b) = true := isI32_iff.mpr ⟨b.le_toInt, b.toInt_lt⟩

theorem isLen_uint (b : BitVec 4) : isLen (uint b) = true := isLen_iff.mpr b.isLt

/-! ### An operand of its type is the value of the port that holds it -/

theorem uint_trunc {n v : Nat} (hv : v < 2 ^ n) : uint (trunc n (v : Int)) = v := by
  rw [uint, trunc, BitVec.ofInt_natCast, BitVec.toNat_ofNat, Nat.mod_eq_of_lt hv]

theorem sint_trunc {n : Nat} {v : Int} (hn : 0 < n) (hv : -(2 ^ (n - 1)) ≤ v ∧ v < 2 ^ (n - 1)) :
    sint (trunc n v) = v :=
  BitVec.toInt_ofInt_eq_self hn hv.1 hv.2

/-- Kinds 0, 1, 5 and 6 read the low half of `op_a` (30_encoding.md R87): it holds the operand's low 16 bits. -/
theorem slice_low_trunc (v : Int) : slice (trunc 32 v) 0 16 = trunc 16 v := by
  rw [slice_low]
  apply BitVec.eq_of_toNat_eq
  simp only [trunc, BitVec.toNat_setWidth, BitVec.toNat_ofInt]
  omega

@[simp] theorem dirOfBit_dirBit (dir : Direction) : dirOfBit (dirBit dir) = dir := by
  cases dir <;> rfl

/-! ### Descriptors -/

/-- Settles O33: each operand goes out on the port its kind reads it from. -/
theorem decodeInvertsEncodeOnPorts : Obligations.DecodeInvertsEncodeOnPorts := by
  intro i hi
  cases i
  case encoderOffset offset =>
    change Except.ok (Instr.encoderOffset (uint (slice (trunc 32 offset) 0 16))) = _
    rw [slice_low_trunc, uint_trunc (isU16_iff.mp hi)]
  case torqueSetpoint current =>
    change Except.ok (Instr.torqueSetpoint (sint (slice (trunc 32 current) 0 16))) = _
    rw [slice_low_trunc, sint_trunc (by decide) (isI16_iff.mp hi)]
  case speedSetpoint rpm =>
    change Except.ok (Instr.speedSetpoint (sint (trunc 32 rpm))) = _
    rw [sint_trunc (by decide) (isI32_iff.mp hi)]
  case positionCtrl1 degrees =>
    change Except.ok (Instr.positionCtrl1 (sint (trunc 32 degrees))) = _
    rw [sint_trunc (by decide) (isI32_iff.mp hi)]
  case positionCtrl2 limit degrees =>
    obtain ⟨hlimit, hdegrees⟩ := Bool.and_eq_true_iff.mp hi
    change Except.ok (Instr.positionCtrl2 (uint (trunc 16 limit)) (sint (trunc 32 degrees))) = _
    rw [uint_trunc (isU16_iff.mp hlimit), sint_trunc (by decide) (isI32_iff.mp hdegrees)]
  case positionCtrl3 degrees dir =>
    change Except.ok (Instr.positionCtrl3 (uint (slice (trunc 32 degrees) 0 16)) (dirOfBit (dirBit dir))) = _
    rw [slice_low_trunc, uint_trunc (isU16_iff.mp hi), dirOfBit_dirBit]
  case positionCtrl4 degrees limit dir =>
    obtain ⟨hdegrees, hlimit⟩ := Bool.and_eq_true_iff.mp hi
    change Except.ok (Instr.positionCtrl4 (uint (slice (trunc 32 degrees) 0 16)) (uint (trunc 16 limit))
      (dirOfBit (dirBit dir))) = _
    rw [slice_low_trunc, uint_trunc (isU16_iff.mp hdegrees), uint_trunc (isU16_iff.mp hlimit), dirOfBit_dirBit]
  case queryMotorStatus => rfl
  case queryMultiTurnAngle => rfl
  case motorStatus len data =>
    change Except.ok (Instr.motorStatus (uint (trunc 4 len)) data) = _
    rw [uint_trunc (isLen_iff.mp hi)]
  case multiTurnAngle len data =>
    change Except.ok (Instr.multiTurnAngle (uint (trunc 4 len)) data) = _
    rw [uint_trunc (isLen_iff.mp hi)]

/-- 30_encoding.md R86, R91: a kind names a well-formed command, or it is above 8 and rejected by name. -/
theorem decodeCommand_cases (d : CommandDescriptor) :
    (uint d.kind ≤ 8 ∧ ∃ i, decodeCommand d = .ok i ∧ i.wellFormed = true) ∨
    (8 < uint d.kind ∧ decodeCommand d = .error (.illegalKind d.kind)) := by
  unfold decodeCommand
  split
  case h_10 h0 h1 h2 h3 h4 h5 h6 h7 h8 =>
    change _ ≠ _ at h0 h1 h2 h3 h4 h5 h6 h7 h8
    exact .inr ⟨by omega, rfl⟩
  all_goals
    rename_i hk
    refine .inl ⟨by omega, _, rfl, ?_⟩
    simp [Instr.wellFormed, isU16_uint, isI16_sint, isI32_sint]

theorem decodeReceived_wellFormed (r : ReceivedFrame) : (decodeReceived r).wellFormed = true := by
  unfold decodeReceived
  split <;> exact isLen_uint r.len

/-- Settles O34: the two cases of a descriptor exclude each other, and both shapes are legal. -/
theorem portsNameWellFormedInstruction : Obligations.PortsNameWellFormedInstruction := by
  refine ⟨fun d hk => ?legal, fun d hk => ?illegal, fun r => ⟨_, rfl, decodeReceived_wellFormed r⟩⟩
  case legal =>
    rcases decodeCommand_cases d with ⟨-, hi⟩ | ⟨habove, -⟩
    · exact hi
    · exact absurd hk (Nat.not_le_of_lt habove)
  case illegal =>
    rcases decodeCommand_cases d with ⟨hle, -⟩ | ⟨-, herr⟩
    · exact absurd hle (Nat.not_le_of_lt hk)
    · exact herr

end Sys2Proof.Machine
end

section
/-! PROOFS. The rows of the opcode table (spec/30_encoding.md R89, R90, R96): a frame matches at most one row of a
direction, the row its byte 0 names, and the frame of a command matches the command's own row. -/

namespace Sys2Proof.Machine

/-! ### Rows by direction and opcode -/

theorem mem_operations (o : Operation) : o ∈ operations := by
  cases o <;> decide

/-- Every row fixes byte 0. -/
theorem lane_mask (o : Operation) : lane (tableRow o).mask 0 = 0xFF := by
  cases o <;> decide

/-- 30_encoding.md R89: a direction and an opcode name one row. -/
theorem operation_eq_of_opcode {o o' : Operation} (hpath : (tableRow o).path = (tableRow o').path)
    (hopcode : lane (tableRow o).pattern 0 = lane (tableRow o').pattern 0) : o = o' := by
  have hrows : ∀ a ∈ operations, ∀ b ∈ operations, (tableRow a).path = (tableRow b).path →
      lane (tableRow a).pattern 0 = lane (tableRow b).pattern 0 → a = b := by decide
  exact hrows o (mem_operations o) o' (mem_operations o') hpath hopcode

theorem isInstance_iff {p : Path} {f : FrameWord} {o : Operation} :
    isInstance p f o = true ↔ (tableRow o).path = p ∧ f &&& (tableRow o).mask = (tableRow o).pattern := by
  simp [isInstance]

theorem portByte_and (f g : FrameWord) (k : Nat) : portByte (f &&& g) k = portByte f k &&& portByte g k :=
  BitVec.extractLsb'_and

/-- A frame that matches a row has the row's opcode. -/
theorem opcode_of_isInstance {p : Path} {f : FrameWord} {o : Operation} (h : isInstance p f o = true) :
    lane f 0 = lane (tableRow o).pattern 0 := by
  obtain ⟨-, hpattern⟩ := isInstance_iff.mp h
  calc lane f 0 = lane f 0 &&& lane (tableRow o).mask 0 := by rw [lane_mask]; exact BitVec.and_allOnes.symm
    _ = lane (f &&& (tableRow o).mask) 0 := (portByte_and f _ 0).symm
    _ = lane (tableRow o).pattern 0 := by rw [hpattern]

/-- Settles O37: the opcode of a frame names the row it matches. -/
theorem tableRowsOfOnePathAreDisjoint : Obligations.TableRowsOfOnePathAreDisjoint := by
  intro p f o o' h h'
  obtain ⟨hpath, -⟩ := isInstance_iff.mp h
  obtain ⟨hpath', -⟩ := isInstance_iff.mp h'
  exact operation_eq_of_opcode (hpath.trans hpath'.symm)
    ((opcode_of_isInstance h).symm.trans (opcode_of_isInstance h'))

/-- 30_encoding.md R96: a frame is read by the row it matches. -/
theorem decodeFrame_of_isInstance {p : Path} {f : FrameWord} {o : Operation} (h : isInstance p f o = true) :
    decodeFrame p f = readFields f o := by
  obtain ⟨o', ho'⟩ : ∃ o', operations.find? (isInstance p f) = some o' :=
    Option.isSome_iff_exists.mp (List.find?_isSome.mpr ⟨o, mem_operations o, h⟩)
  obtain rfl := tableRowsOfOnePathAreDisjoint p f o' o (List.find?_some ho') h
  rw [decodeFrame, ho']

/-- Where a frame is read at all, it is by a row. -/
theorem readFields_of_decodeFrame {p : Path} {f : FrameWord} {i : Instr} (h : decodeFrame p f = .ok i) :
    ∃ o, readFields f o = .ok i := by
  unfold decodeFrame at h
  split at h
  · next o _ => exact ⟨o, h⟩
  · cases h

/-! ### The frame of a command against its row (30_encoding.md R90) -/

/-- The bytes of a frame number given in full. -/
theorem portByte_ofNat (m k : Nat) : portByte (BitVec.ofNat 64 m) k = BitVec.ofNat 8 (m % 2 ^ 64 / 256 ^ k) := by
  rw [← ofNat_div_eq_portByte, uint, BitVec.toNat_ofNat]

/-- 30_encoding.md R88: above its bit 0 the direction byte is 0. -/
theorem dirByte_and_reserved (dir : Direction) : dirByte dir &&& 0xFE#8 = 0#8 := by
  cases dir <;> decide

theorem encodeFrame_and_mask {i : Instr} (hi : isCommand i = true) :
    encodeFrame i &&& (tableRow i.operation).mask = (tableRow i.operation).pattern := by
  refine frameWord_ext (forall_lt_frameLen.mpr ?_)
  simp only [portByte_and]
  cases i
  case motorStatus len data => exact absurd hi Bool.false_ne_true
  case multiTurnAngle len data => exact absurd hi Bool.false_ne_true
  all_goals
    simp [encodeFrame_encoderOffset, encodeFrame_torqueSetpoint, encodeFrame_speedSetpoint, encodeFrame_positionCtrl1,
      encodeFrame_positionCtrl2, encodeFrame_positionCtrl3, encodeFrame_positionCtrl4, encodeFrame_queryMotorStatus,
      encodeFrame_queryMultiTurnAngle, Instr.operation, tableRow, portByte_frame8, portByte_ofNat,
      dirByte_and_reserved]

theorem isInstance_encodeFrame {i : Instr} (hi : isCommand i = true) :
    isInstance .tx (encodeFrame i) i.operation = true :=
  isInstance_iff.mpr ⟨of_decide_eq_true hi, encodeFrame_and_mask hi⟩

/-! ### What is sent -/

/-- 43_dispatcher.md R183, R185: a frame that a command sends is the command's, its flag the operands' verdict. -/
theorem exec_sent {i : Instr} {s t : State} (hi : isCommand i = true) (ht : exec i s = .next t)
    (hsent : t.enc.txValid = true) : t.enc = sentOutputs (encodeFrame i) (operandsOutOfBounds i) := by
  obtain rfl := Host.Outcome.next.inj ((exec_command hi s).symm.trans ht)
  rw [dispatch_frameOfPort] at hsent ⊢
  dsimp only at hsent ⊢
  split at hsent
  · cases hsent
  · next hsend => exact if_neg hsend

/-- Settles O17: what is sent is the frame of the command, whatever the operands. -/
theorem sentFrameIsInstanceOfItsRow : Obligations.SentFrameIsInstanceOfItsRow := by
  intro i s t hi ht hsent
  rw [exec_sent hi ht hsent]
  exact isInstance_encodeFrame hi

end Sys2Proof.Machine
end

section
/-! PROOFS. A command frame read back (spec/30_encoding.md R81, R83; spec/40_scaling.md R118): each field of the frame
is a slice of it, a field that fits holds the converted value, and the conversion has one inverse. -/

namespace Sys2Proof.Machine

/-! ### Slices of a frame written as one number (30_encoding.md R81) -/

@[simp] theorem slice_or (f g : FrameWord) (lo n : Nat) : slice (f ||| g) lo n = slice f lo n ||| slice g lo n :=
  BitVec.extractLsb'_or

/-- The fields of a frame lie above its opcode. -/
@[simp] theorem slice_opcode {op lo n : Nat} (hop : op < 256) (hlo : 8 ≤ lo) : slice (BitVec.ofNat 64 op) lo n = 0 := by
  have hpow : 2 ^ 8 ≤ 2 ^ lo := Nat.pow_le_pow_right (by decide) hlo
  apply BitVec.eq_of_toNat_eq
  rw [slice, BitVec.extractLsb'_toNat, BitVec.toNat_ofNat, Nat.mod_eq_of_lt (by omega : op < 2 ^ 64),
    Nat.shiftRight_eq_div_pow, Nat.div_eq_of_lt (by omega)]
  rfl

/-- A field read at its own place. -/
@[simp] theorem slice_zext_shiftLeft {n lo : Nat} (v : BitVec n) (h : lo + n ≤ 64) :
    slice (zext 64 v <<< lo) lo n = v := by
  apply BitVec.eq_of_getLsbD_eq
  intro j hj
  have hport : lo + j < 64 := by omega
  simp [slice, zext, hj, hport]

/-- A field read where another stands. -/
@[simp] theorem slice_zext_shiftLeft_disjoint {w n lo lo' : Nat} (v : BitVec w) (h : lo' + n ≤ lo ∨ lo + w ≤ lo') :
    slice (zext 64 v <<< lo) lo' n = 0 := by
  apply BitVec.eq_of_getLsbD_eq
  intro j hj
  rcases h with hbelow | habove
  · have hshift : lo' + j < lo := by omega
    simp [slice, zext, hshift]
  · have hout : v.getLsbD (lo' + j - lo) = false := BitVec.getLsbD_of_ge v _ (by omega)
    simp [slice, zext, hout]

/-! ### Converted values and their operands -/

/-- A multiple of the factor is converted back (entry 8). -/
theorem unscale_mul {factor : Int} (hf : factor ≠ 0) (v : Int) : unscale factor (factor * v) = .ok v := by
  rw [unscale, Int.mul_emod_right, if_pos rfl, Int.mul_ediv_cancel_left v hf]

/-- An operand found for a field is the one that converts to it. -/
theorem mul_eq_of_unscale {factor field v : Int} (h : unscale factor field = .ok v) : factor * v = field := by
  unfold unscale at h
  split at h
  · next hdvd =>
    obtain rfl := Except.ok.inj h
    exact Int.mul_ediv_cancel' (Int.dvd_of_emod_eq_zero hdvd)
  · cases h

/-- 40_scaling.md R118, R112: a signed speed within the bounds of 43_dispatcher.md R185 reads back. -/
theorem unscale_rpm32 {rpm : Int} (h : -3579139 ≤ rpm ∧ rpm ≤ 3579139) :
    unscale cdpsPerRpm (sint (trunc 32 (cdpsPerRpm * rpm))) = .ok rpm := by
  rw [sint_trunc (by decide) (by simp only [cdpsPerRpm]; omega), unscale_mul (by decide)]

theorem unscale_deg32 {degrees : Int} (h : -21474836 ≤ degrees ∧ degrees ≤ 21474836) :
    unscale cdegPerDeg (sint (trunc 32 (cdegPerDeg * degrees))) = .ok degrees := by
  rw [sint_trunc (by decide) (by simp only [cdegPerDeg]; omega), unscale_mul (by decide)]

theorem uint_trunc_int {n : Nat} {v : Int} (hv : 0 ≤ v ∧ v < 2 ^ n) : (uint (trunc n v) : Int) = v := by
  obtain ⟨m, rfl⟩ := Int.eq_ofNat_of_zero_le hv.1
  rw [uint_trunc (by exact_mod_cast hv.2)]

theorem unscale_rpm16 {limit : Nat} (h : limit ≤ 109) :
    unscale cdpsPerRpm (uint (trunc 16 (cdpsPerRpm * limit))) = .ok (limit : Int) := by
  rw [uint_trunc_int (by simp only [cdpsPerRpm]; omega), unscale_mul (by decide)]

theorem unscale_deg16 {degrees : Nat} (h : degrees ≤ 655) :
    unscale cdegPerDeg (uint (trunc 16 (cdegPerDeg * degrees))) = .ok (degrees : Int) := by
  rw [uint_trunc_int (by simp only [cdegPerDeg]; omega), unscale_mul (by decide)]

/-! ### Each command's row reads its frame back -/

/-- The fields of a command in range, read by the command's own row. -/
theorem readFields_encodeFrame {i : Instr} (hwf : i.wellFormed = true) (hi : isCommand i = true)
    (hrange : operandsOutOfBounds i = false) : readFields (encodeFrame i) i.operation = .ok i := by
  cases i
  case encoderOffset offset =>
    have hfield : slice (encodeFrame (.encoderOffset offset)) 48 16 = trunc 16 offset := by
      simp [encodeFrame, place]
    simp only [Instr.operation, readFields, hfield, uint_trunc (isU16_iff.mp hwf)]
  case torqueSetpoint current =>
    have hfield : slice (encodeFrame (.torqueSetpoint current)) 32 16 = trunc 16 current := by
      simp [encodeFrame, place]
    simp only [Instr.operation, readFields, hfield, sint_trunc (n := 16) (by decide) (isI16_iff.mp hwf)]
  case speedSetpoint rpm =>
    have hbounds : -3579139 ≤ rpm ∧ rpm ≤ 3579139 := by
      simpa [operandsOutOfBounds] using hrange
    have hfield : slice (encodeFrame (.speedSetpoint rpm)) 32 32 = trunc 32 (cdpsPerRpm * rpm) := by
      simp [encodeFrame, place]
    simp only [Instr.operation, readFields, hfield, unscale_rpm32 hbounds]
    rfl
  case positionCtrl1 degrees =>
    have hbounds : -21474836 ≤ degrees ∧ degrees ≤ 21474836 := by
      simpa [operandsOutOfBounds] using hrange
    have hfield : slice (encodeFrame (.positionCtrl1 degrees)) 32 32 = trunc 32 (cdegPerDeg * degrees) := by
      simp [encodeFrame, place]
    simp only [Instr.operation, readFields, hfield, unscale_deg32 hbounds]
    rfl
  case positionCtrl2 limit degrees =>
    obtain ⟨hlimit, hdegrees⟩ : limit ≤ 109 ∧ -21474836 ≤ degrees ∧ degrees ≤ 21474836 := by
      simpa [operandsOutOfBounds] using hrange
    have hspeed : slice (encodeFrame (.positionCtrl2 limit degrees)) 16 16 = trunc 16 (cdpsPerRpm * limit) := by
      simp [encodeFrame, place]
    have hpos : slice (encodeFrame (.positionCtrl2 limit degrees)) 32 32 = trunc 32 (cdegPerDeg * degrees) := by
      simp [encodeFrame, place]
    simp only [Instr.operation, readFields, hspeed, hpos, unscale_rpm16 hlimit, unscale_deg32 hdegrees]
    rfl
  case positionCtrl3 degrees dir =>
    have hdegrees : degrees ≤ 655 := by simpa [operandsOutOfBounds] using hrange
    have hpos : slice (encodeFrame (.positionCtrl3 degrees dir)) 32 16 = trunc 16 (cdegPerDeg * degrees) := by
      simp [encodeFrame, place]
    have hdir : slice (encodeFrame (.positionCtrl3 degrees dir)) 8 1 = dirBit dir := by
      simp [encodeFrame, place]
    simp only [Instr.operation, readFields, hpos, hdir, unscale_deg16 hdegrees, dirOfBit_dirBit]
    rfl
  case positionCtrl4 degrees limit dir =>
    obtain ⟨hlimit, hdegrees⟩ : limit ≤ 109 ∧ degrees ≤ 655 := by simpa [operandsOutOfBounds] using hrange
    have hspeed : slice (encodeFrame (.positionCtrl4 degrees limit dir)) 16 16 = trunc 16 (cdpsPerRpm * limit) := by
      simp [encodeFrame, place]
    have hpos : slice (encodeFrame (.positionCtrl4 degrees limit dir)) 32 16 = trunc 16 (cdegPerDeg * degrees) := by
      simp [encodeFrame, place]
    have hdir : slice (encodeFrame (.positionCtrl4 degrees limit dir)) 8 1 = dirBit dir := by
      simp [encodeFrame, place]
    simp only [Instr.operation, readFields, hspeed, hpos, hdir, unscale_rpm16 hlimit, unscale_deg16 hdegrees,
      dirOfBit_dirBit]
    rfl
  case queryMotorStatus => rfl
  case queryMultiTurnAngle => rfl
  case motorStatus len data => exact absurd hi Bool.false_ne_true
  case multiTurnAngle len data => exact absurd hi Bool.false_ne_true

/-- A command frame in range decodes to its command. -/
theorem decodeFrame_encodeFrame {i : Instr} (hwf : i.wellFormed = true) (hi : isCommand i = true)
    (hrange : operandsOutOfBounds i = false) : decodeFrame .tx (encodeFrame i) = .ok i :=
  (decodeFrame_of_isInstance (isInstance_encodeFrame hi)).trans (readFields_encodeFrame hwf hi hrange)

/-! ### Responses -/

/-- A response row fixes byte 0 alone (30_encoding.md R82, R96). -/
theorem and_low_byte_eq_opcode {f : FrameWord} {op : Nat} (hop : op < 256) (h : portByte f 0 = BitVec.ofNat 8 op) :
    f &&& 0xFF = BitVec.ofNat 64 op := by
  refine frameWord_ext fun k _ => ?_
  have hmask : portByte (0xFF : FrameWord) k = if k = 0 then 0xFF else 0 := portByte_opcode (by decide) k
  rw [portByte_and, portByte_opcode hop, hmask]
  split
  · next hk => rw [hk, h]; exact BitVec.and_allOnes
  · next => exact BitVec.and_zero

/-- Settles O35: the row of the command reads its frame back, and a response row takes the frame as it is. -/
theorem decodeInvertsEncodeOnFrames : Obligations.DecodeInvertsEncodeOnFrames := by
  refine ⟨fun i => decodeFrame_encodeFrame, fun f hf => ?status, fun f hf => ?angle⟩
  case status =>
    exact decodeFrame_of_isInstance (o := .motorStatus)
      (isInstance_iff.mpr ⟨rfl, and_low_byte_eq_opcode (by decide) hf⟩)
  case angle =>
    exact decodeFrame_of_isInstance (o := .multiTurnAngle)
      (isInstance_iff.mpr ⟨rfl, and_low_byte_eq_opcode (by decide) hf⟩)

/-- Settles O36: what a command sends is its frame, and no flag means its operands are in range. -/
theorem sentFrameReadsBackAsTheCommand : Obligations.SentFrameReadsBackAsTheCommand := by
  intro i s t hwf hi ht hsent hflag
  have henc := exec_sent hi ht hsent
  rw [henc] at hflag ⊢
  exact decodeFrame_encodeFrame hwf hi hflag

end Sys2Proof.Machine
end

section
/-! PROOFS. A table word (spec/30_encoding.md R94, R96; entries 6, 7): what a row reads is well-formed, and the inputs
that present a transaction make the next step run its instruction. -/

namespace Sys2Proof.Machine

/-! ### An operand found for a field is of its type -/

theorem except_map_eq_ok {ε α β : Type} {e : Except ε α} {f : α → β} {b : β} (h : e.map f = .ok b) :
    ∃ a, e = .ok a ∧ b = f a := by
  cases e with
  | ok a => exact ⟨a, rfl, (Except.ok.inj h).symm⟩
  | error x => cases h

theorem except_bind_eq_ok {ε α β : Type} {e : Except ε α} {f : α → Except ε β} {b : β} (h : e.bind f = .ok b) :
    ∃ a, e = .ok a ∧ f a = .ok b := by
  cases e with
  | ok a => exact ⟨a, rfl, h⟩
  | error x => cases h

/-- The factors only shrink a field. -/
theorem isI32_of_unscale {factor v : Int} {field : BitVec 32} (hf : 0 < factor)
    (h : unscale factor (sint field) = .ok v) : isI32 v = true := by
  have hmul := mul_eq_of_unscale h
  obtain ⟨hlow, hhigh⟩ := isI32_iff.mp (isI32_sint field)
  exact isI32_iff.mpr ⟨by nlinarith, by nlinarith⟩

theorem isU16_of_unscale {factor v : Int} {field : BitVec 16} (hf : 0 < factor)
    (h : unscale factor (uint field) = .ok v) : isU16 v.toNat = true := by
  have hmul := mul_eq_of_unscale h
  have hfield := isU16_iff.mp (isU16_uint field)
  have hv : v < 2 ^ 16 := by nlinarith
  exact isU16_iff.mpr (by omega)

/-- 30_encoding.md R81, R82, R83: what a row reads from a frame is well-formed. -/
theorem readFields_wellFormed {f : FrameWord} {o : Operation} {i : Instr} (h : readFields f o = .ok i) :
    i.wellFormed = true := by
  have hspeed : 0 < cdpsPerRpm := by decide
  have hpos : 0 < cdegPerDeg := by decide
  cases o <;> simp only [readFields] at h
  case encoderOffset =>
    obtain rfl := Except.ok.inj h
    exact isU16_uint _
  case torqueSetpoint =>
    obtain rfl := Except.ok.inj h
    exact isI16_sint _
  case speedSetpoint =>
    obtain ⟨rpm, hrpm, rfl⟩ := except_map_eq_ok h
    exact isI32_of_unscale hspeed hrpm
  case positionCtrl1 =>
    obtain ⟨degrees, hdegrees, rfl⟩ := except_map_eq_ok h
    exact isI32_of_unscale hpos hdegrees
  case positionCtrl2 =>
    obtain ⟨limit, hlimit, hrest⟩ := except_bind_eq_ok h
    obtain ⟨degrees, hdegrees, rfl⟩ := except_map_eq_ok hrest
    exact Bool.and_eq_true_iff.mpr ⟨isU16_of_unscale hspeed hlimit, isI32_of_unscale hpos hdegrees⟩
  case positionCtrl3 =>
    obtain ⟨degrees, hdegrees, rfl⟩ := except_map_eq_ok h
    exact isU16_of_unscale hpos hdegrees
  case positionCtrl4 =>
    obtain ⟨limit, hlimit, hrest⟩ := except_bind_eq_ok h
    obtain ⟨degrees, hdegrees, rfl⟩ := except_map_eq_ok hrest
    exact Bool.and_eq_true_iff.mpr ⟨isU16_of_unscale hpos hdegrees, isU16_of_unscale hspeed hlimit⟩
  all_goals
    obtain rfl := Except.ok.inj h
    rfl

/-! ### Table words -/

theorem decodeTableWord_wellFormed {nbits w : Nat} {i : Instr} (h : decodeTableWord nbits w = some i) :
    i.wellFormed = true := by
  simp only [decodeTableWord] at h
  split at h
  · next j hj =>
    obtain rfl := Option.some.inj h
    obtain ⟨o, ho⟩ := readFields_of_decodeFrame hj
    exact readFields_wellFormed ho
  · cases h

theorem withFetchWord_of_decodeTableWord {nbits w : Nat} {i : Instr} (h : decodeTableWord nbits w = some i)
    (s : State) : s.withFetchWord nbits w = s.present (Transaction.toInputs (encode i)) := by
  simp only [State.withFetchWord, tableWordInputs, h]

/-! ### A presented transaction -/

/-- 30_encoding.md R94: presented alone, a transaction's instruction is what the next step runs. -/
theorem step_present_toInputs {x : Transaction} {i : Instr} (h : decode x = .ok i) (s : State) :
    step (s.present (Transaction.toInputs x)) = exec i (s.present (Transaction.toInputs x)).sample := by
  obtain ⟨-, hcommandAlone, hframeAlone, -⟩ := stepRunsDecodedInstruction
  cases x with
  | command d => exact hcommandAlone _ i rfl rfl h
  | received r => exact hframeAlone _ i rfl rfl h

/-- Settles O39: a word decodes to a well-formed instruction, whose ports decode back to it. -/
theorem fetchWordRunsTheTableWord : Obligations.FetchWordRunsTheTableWord := by
  intro s nbits w i h
  have hwf := decodeTableWord_wellFormed h
  rw [withFetchWord_of_decodeTableWord h]
  exact ⟨hwf, step_present_toInputs (decodeInvertsEncodeOnPorts i hwf) s⟩

end Sys2Proof.Machine
end

section
/-! PROOFS. The rounded division and the two speed units (spec/40_scaling.md R111, R112, R115): both roundings in terms of
the floor quotient, and the bounds they give a wire speed. -/

namespace Sys2Proof.Machine

/-! ### Each rounding as a floor quotient (40_scaling.md R111) -/

theorem idiv_trunc_eq (a b : Int) : idiv .trunc a b = if 0 ≤ a then a / b else -(-a / b) := by
  split
  · next ha => exact Int.tdiv_eq_ediv_of_nonneg ha
  · next ha => rw [← Int.tdiv_eq_ediv_of_nonneg (by omega : 0 ≤ -a), Int.neg_tdiv, Int.neg_neg]; rfl

theorem idiv_floor_eq (a : Int) {b : Int} (hb : 0 < b) : idiv .floor a b = a / b :=
  Int.fdiv_eq_ediv_of_nonneg a hb.le

/-- The roundings part by one where a negative dividend leaves a remainder. -/
theorem idiv_floor_eq_idiv_trunc (a : Int) {b : Int} (hb : 0 < b) :
    idiv .floor a b = if a < 0 ∧ ¬b ∣ a then idiv .trunc a b - 1 else idiv .trunc a b := by
  simp only [idiv, Int.fdiv_eq_tdiv, if_pos hb.le, Int.sign_eq_one_of_pos hb]
  by_cases hdvd : b ∣ a
  · simp [hdvd]
  · by_cases ha : a < 0
    · simp [hdvd, ha]
    · simp [hdvd, ha, not_lt.mp ha]

theorem idiv_nonneg (mode : Config.DivMode) {a b : Int} (ha : 0 ≤ a) (hb : 0 ≤ b) : 0 ≤ idiv mode a b := by
  cases mode with
  | trunc => exact Int.tdiv_nonneg ha hb
  | floor => exact Int.fdiv_nonneg ha hb

/-- Settles O41: the default is a parameter value, and each clause is one of the equations above. -/
theorem roundingModesDifferByOneOnNegatives : Obligations.RoundingModesDifferByOneOnNegatives :=
  ⟨rfl, fun a b hb => ⟨idiv_trunc_eq a b, idiv_floor_eq a hb, idiv_floor_eq_idiv_trunc a hb⟩⟩

/-! ### Speeds (40_scaling.md R112, R115) -/

/-- Settles O40: `360 = 6 * 60`, so the division is exact. -/
theorem rpmScaleIsExact : Obligations.RpmScaleIsExact := by
  intro mode rpm
  have hexact : rpm * 360 = 6 * rpm * 60 := by omega
  refine ⟨by omega, ?_, ?_⟩
  · rw [hexact, idiv_mul_cancel mode _ (by decide)]
  · rw [rpmToCdps_eq_mul, Int.mul_comm]

/-- 40_scaling.md R115: `-32768` is no multiple of 6, so only rounding down reaches `-5462`. -/
theorem wireToRpm_bounds (mode : Config.DivMode) {raw : Int} (h : -(2 ^ 15) ≤ raw ∧ raw < 2 ^ 15) :
    (mode = .trunc → -5461 ≤ wireToRpm mode raw) ∧ -5462 ≤ wireToRpm mode raw ∧ wireToRpm mode raw ≤ 5461 := by
  rw [wireToRpm_eq_idiv]
  cases mode with
  | trunc => rw [idiv_trunc_eq]; split <;> omega
  | floor =>
    rw [idiv_floor_eq raw (by decide)]
    exact ⟨Config.DivMode.noConfusion, by omega, by omega⟩

/-- Settles O42: the factor 60 cancels, and a sixth of 16 signed bits stays within them. -/
theorem wireSpeedIsOneSixth : Obligations.WireSpeedIsOneSixth := by
  intro mode raw rpm
  obtain ⟨htrunc, hlow, hhigh⟩ := wireToRpm_bounds mode (isI16_iff.mp (isI16_sint raw))
  have hwide : -(2 ^ 15) ≤ rpm ∧ rpm < 2 ^ 15 := ⟨le_trans (by decide) hlow, lt_of_le_of_lt hhigh (by decide)⟩
  exact ⟨rfl, wireToRpm_eq_idiv mode raw.toInt, htrunc, hlow, hhigh, sint_trunc (by decide) hwide⟩

end Sys2Proof.Machine
end

section
/-! PROOFS. A field of N bits read back (spec/40_scaling.md R118): truncation forgets multiples of `2^N`, and exactly one
multiple brings a value into the field's range. -/

namespace Sys2Proof.Machine

/-! ### Values that fit (00_scope.md R12) -/

theorem fitsS_iff {v : Int} {n : Nat} : fitsS v n = true ↔ -(2 ^ (n - 1)) ≤ v ∧ v < 2 ^ (n - 1) := by
  simp [fitsS]

theorem fitsU_iff {v : Int} {n : Nat} : fitsU v n = true ↔ 0 ≤ v ∧ v < 2 ^ n := by
  simp [fitsU]

theorem fitsS_sint {n : Nat} (b : BitVec n) : fitsS (sint b) n = true := fitsS_iff.mpr ⟨b.le_toInt, b.toInt_lt⟩

theorem fitsU_uint {n : Nat} (b : BitVec n) : fitsU (uint b) n = true :=
  fitsU_iff.mpr ⟨Int.natCast_nonneg _, by exact_mod_cast b.isLt⟩

theorem sint_trunc_eq_iff {n : Nat} (hn : 0 < n) {c : Int} : sint (trunc n c) = c ↔ fitsS c n = true :=
  ⟨fun h => h ▸ fitsS_sint (trunc n c), fun h => sint_trunc hn (fitsS_iff.mp h)⟩

theorem uint_trunc_eq_iff {n : Nat} {c : Int} : (uint (trunc n c) : Int) = c ↔ fitsU c n = true :=
  ⟨fun h => h ▸ fitsU_uint (trunc n c), fun h => uint_trunc_int (fitsU_iff.mp h)⟩

/-! ### Wrapping -/

theorem trunc_sub_mul_two_pow (n : Nat) (c k : Int) : trunc n (c - k * 2 ^ n) = trunc n c := by
  apply BitVec.eq_of_toNat_eq
  simp [trunc, BitVec.toNat_ofInt, Int.sub_mul_emod_self_right]

/-- One multiple of `2^N` brings a value into a range of `2^N` values. -/
theorem existsUnique_wrap (n : Nat) (c : Int) {lo hi : Int} (h : hi = lo + 2 ^ n - 1) :
    ∃! k : Int, lo ≤ c - k * 2 ^ n ∧ c - k * 2 ^ n ≤ hi := by
  have hwindow := existsUnique_sub_zsmul_mem_Ico (a := (2 : Int) ^ n) (by positivity) c lo
  simpa only [Set.mem_Ico, smul_eq_mul, h, Int.le_sub_one_iff] using hwindow

/-- Settles O45: the wrapped value truncates to the same field, and it fits. -/
theorem wrapLaw : Obligations.WrapLaw := by
  intro n c hn
  have hhalves : (2 : Int) ^ n = 2 ^ (n - 1) + 2 ^ (n - 1) := by
    rw [← mul_two, ← pow_succ, Nat.sub_add_cancel hn]
  refine ⟨sint_trunc_eq_iff hn, uint_trunc_eq_iff, existsUnique_wrap n c (by omega), fun k hlow hhigh => ?signed,
    existsUnique_wrap n c (by omega), fun k hlow hhigh => ?unsigned⟩
  case signed =>
    rw [← trunc_sub_mul_two_pow n c k]
    exact sint_trunc hn ⟨hlow, Int.le_sub_one_iff.mp hhigh⟩
  case unsigned =>
    rw [← trunc_sub_mul_two_pow n c k]
    exact uint_trunc_int ⟨hlow, Int.le_sub_one_iff.mp hhigh⟩

end Sys2Proof.Machine
end

section
/-! PROOFS. The round trips of speed and angle (spec/40_scaling.md R119): each scaled value is a multiple of the divisor
that undoes it, and each reading of the angle gives back what its own wire form holds. -/

namespace Sys2Proof.Machine

/-! ### Scaled values divided back -/

/-- 40_scaling.md R119 (a). -/
theorem wireToRpm_six_mul (mode : Config.DivMode) (r : Int) : wireToRpm mode (6 * r) = r := by
  rw [wireToRpm_eq_idiv, Int.mul_comm, idiv_mul_cancel mode r (by decide)]

/-- 40_scaling.md R119 (b): a hundredth of the command scaling is the wire speed. -/
theorem idiv_rpmToCdps (mode : Config.DivMode) (r : Int) : idiv mode (rpmToCdps mode r) 100 = 6 * r := by
  have hcdps : rpmToCdps mode r = 6 * r * 100 := by rw [rpmToCdps_eq_mul]; omega
  rw [hcdps, idiv_mul_cancel mode _ (by decide)]

/-- 40_scaling.md R119 (c). -/
theorem cdegToDeg_degToCdeg (mode : Config.DivMode) (d : Int) : cdegToDeg mode (degToCdeg d) = d :=
  idiv_mul_cancel mode d (by decide)

/-! ### Each reading of the angle against its wire form (44_decoder.md R203) -/

theorem extendAngle_sext56_trunc {c : Int} (h : fitsS c 56 = true) : extendAngle .sext56 (trunc 56 c) = c :=
  (sint_trunc_eq_iff (by decide)).mpr h

theorem extendAngle_zext56_trunc {c : Int} (h : fitsU c 56 = true) : extendAngle .zext56 (trunc 56 c) = c :=
  uint_trunc_eq_iff.mpr h

theorem extendAngle_zext56_nonneg (a : BitVec 56) : 0 ≤ extendAngle .zext56 a := Int.natCast_nonneg _

/-- Sign and magnitude hold every value of magnitude below `2^55`. -/
theorem extendAngle_signMagnitude {c : Int} (h : c.natAbs < 2 ^ 55) :
    extendAngle .signMag56 (signMagnitude c) = c := by
  have hmag : slice (signMagnitude c) 0 55 = BitVec.ofNat 55 c.natAbs := BitVec.extractLsb'_append_eq_right
  have hsign : (signMagnitude c).getLsbD 55 = decide (c < 0) := by
    refine BitVec.getLsbD_append.trans ?_
    by_cases hc : c < 0 <;> simp [hc]
  simp only [extendAngle, hmag, hsign, uint, BitVec.toNat_ofNat, Nat.mod_eq_of_lt h, decide_eq_true_eq]
  omega

/-! ### The laws -/

/-- 40_scaling.md R119 (c), where the reading of the wire form is the angle's value. -/
theorem cdegToDeg_of_extendAngle_eq (mode : Config.DivMode) {ext : Config.AngleExt} {a : BitVec 56} {d : Int}
    (h : extendAngle ext a = 100 * d) : cdegToDeg mode (extendAngle ext a) = d := by
  rw [h, Int.mul_comm]
  exact cdegToDeg_degToCdeg mode d

/-- Settles O46: a value in bounds fits its wire form, and the factor it was scaled by divides out exactly. -/
theorem roundTripLaws : Obligations.RoundTripLaws := by
  refine ⟨fun mode r hlow hhigh => ?speed, fun mode d hlow hhigh => ?angle, by decide,
    fun mode d hlow hhigh => ?zeroExtended, fun mode d hneg => ?zeroExtendedNegative⟩
  case speed =>
    refine ⟨fitsS_iff.mpr (by omega), wireToRpm_six_mul mode r, ?_⟩
    rw [idiv_rpmToCdps, wireToRpm_six_mul]
  case angle =>
    have hfits : fitsS (100 * d) 56 = true := fitsS_iff.mpr (by omega)
    exact ⟨cdegToDeg_degToCdeg mode d, hfits, cdegToDeg_of_extendAngle_eq mode (extendAngle_sext56_trunc hfits),
      cdegToDeg_of_extendAngle_eq mode (extendAngle_signMagnitude (by omega))⟩
  case zeroExtended =>
    exact cdegToDeg_of_extendAngle_eq mode (extendAngle_zext56_trunc (fitsU_iff.mpr (by omega)))
  case zeroExtendedNegative =>
    have hnonneg : 0 ≤ cdegToDeg mode (extendAngle .zext56 (trunc 56 (100 * d))) :=
      idiv_nonneg mode (extendAngle_zext56_nonneg _) (by decide)
    omega

end Sys2Proof.Machine
end

section
/-! PROOFS. What a serializer wrote read back (spec/41_serializer.md R138): a field of the frame reads back as the bits
written, so the readings of a truncated value decide the rest. -/

namespace Sys2Proof.Machine

/-! ### A field read where it was written -/

/-- Read after write over a whole field: `n` bytes hold the value's low `8 * n` bits. -/
theorem getBytes_setBytes {m : Memory} (hm : m.wf = true) {a n : Nat} (h : a + n ≤ Config.frameLen) (v : Nat) :
    getBytes (setBytes m a v n) a n = v % 256 ^ n := by
  refine getBytes_eq_mod fun k hk => ?_
  have hinside : a ≤ a + k ∧ a + k < a + n := by omega
  rw [byteAt_setBytes hm h, if_pos hinside, Nat.add_sub_cancel_left]

/-- A word no wider than its field reads back whole. -/
theorem memRead_setBytes_uint {m : Memory} (hm : m.wf = true) {a n w : Nat} (h : a + n ≤ Config.frameLen)
    (hw : w ≤ 8 * n) (v : BitVec w) : memRead (setBytes m a (uint v) n) a n = .ok (uint v) := by
  have hfits : uint v < 256 ^ n :=
    calc uint v < 2 ^ w := v.isLt
      _ ≤ 2 ^ (8 * n) := Nat.pow_le_pow_right (by decide) hw
      _ = 256 ^ n := Nat.pow_mul 2 8 n
  rw [memRead_inside h, getBytes_setBytes hm h, Nat.mod_eq_of_lt hfits]

theorem ofNat_uint {n : Nat} (v : BitVec n) : BitVec.ofNat n (uint v) = v := by
  rw [uint, BitVec.ofNat_toNat, BitVec.setWidth_eq]

theorem des16u_setBytes_uint {m : Memory} (hm : m.wf = true) {a : Nat} (h : a + 2 ≤ Config.frameLen) (v : BitVec 16) :
    des16u a (setBytes m a (uint v) 2) = .ok (uint v : Int) := by
  rw [des16u, memRead_setBytes_uint hm h (by decide), Except.map, ofNat_uint]

theorem des16s_setBytes_uint {m : Memory} (hm : m.wf = true) {a : Nat} (h : a + 2 ≤ Config.frameLen) (v : BitVec 16) :
    des16s a (setBytes m a (uint v) 2) = .ok (sint v) := by
  rw [des16s, memRead_setBytes_uint hm h (by decide), Except.map, ofNat_uint]

/-! ### The residue written -/

/-- 41_serializer.md R137: truncation keeps the residue, and nothing else of the value. -/
theorem trunc_eq_of_emod_eq {n : Nat} {c c' : Int} (h : c % 2 ^ n = c' % 2 ^ n) : trunc n c = trunc n c' := by
  apply BitVec.eq_of_toNat_eq
  simp [trunc, BitVec.toNat_ofInt, h]

/-- Settles O48: the field reads back as the truncated value, whose reading is the value iff it fits. -/
theorem serializerAndDeserializerAreInverse : Obligations.SerializerAndDeserializerAreInverse := by
  refine ⟨fun m addr c hm haddr => ?field16, fun m addr c hm haddr => ?field32,
    fun m addr c c' => ⟨?residue16, ?residue32⟩⟩
  case field16 =>
    exact ⟨_, _, _, ser16_inside c haddr, des16u_setBytes_uint hm haddr _, des16s_setBytes_uint hm haddr _,
      uint_trunc_eq_iff, sint_trunc_eq_iff (by decide)⟩
  case field32 =>
    refine ⟨_, _, ser32_inside c haddr, memRead_setBytes_uint hm haddr (by decide) _, ?_⟩
    rw [ofNat_uint]
    exact sint_trunc_eq_iff (by decide)
  case residue16 =>
    intro hresidue
    rw [ser16, ser16, trunc_eq_of_emod_eq hresidue]
  case residue32 =>
    intro hresidue
    rw [ser32, ser32, trunc_eq_of_emod_eq hresidue]

end Sys2Proof.Machine
end

section
/-! PROOFS. The nine commands as the spec writes them (spec/42_encoder.md R151 to R159): each frame by its bytes as
integers (30_encoding.md R81), and what the hand-over of it does in and out of range. -/

namespace Sys2Proof.Machine

/-! ### Bytes of a truncated value (40_scaling.md R118, 41_serializer.md R137) -/

/-- Below bit `n` the truncation to `n` bits loses nothing. -/
theorem emod_ediv_emod {m b r : Int} (hb : 0 < b) (h : b * r ∣ m) (v : Int) : v % m / b % r = v / b % r := by
  obtain ⟨q, rfl⟩ := h
  rw [Int.emod_def v, Int.mul_assoc, Int.mul_assoc, Int.sub_mul_ediv_left _ _ hb.ne', Int.sub_mul_emod_self_left]

/-- 20_memory.md R56: the bytes of a field are those of the integer it truncates. -/
theorem portByte_trunc {n k : Nat} (h : 8 * k + 8 ≤ n) (v : Int) : portByte (trunc n v) k = intByte v k := by
  have huint : (uint (trunc n v) : Int) = v % 2 ^ n := by
    rw [uint, trunc, BitVec.toNat_ofInt, Int.toNat_of_nonneg (Int.emod_nonneg _ (by positivity))]
    norm_cast
  have hbytes : (256 : Int) ^ k * 2 ^ 8 ∣ 2 ^ n := by
    have hpow : (256 : Int) ^ k * 2 ^ 8 = 2 ^ (8 * k + 8) := by rw [pow_add, pow_mul]; rfl
    rw [hpow]
    exact pow_dvd_pow 2 h
  have hbyte : ((uint (trunc n v) / 256 ^ k : Nat) : Int) % 2 ^ 8 = v / 256 ^ k % 2 ^ 8 := by
    rw [Int.natCast_div, huint, Int.natCast_pow]
    exact emod_ediv_emod (by positivity) hbytes v
  rw [← ofNat_div_eq_portByte, ← BitVec.ofInt_natCast]
  exact trunc_eq_of_emod_eq hbyte

theorem dirByte_eq_wireDirection (dir : Direction) : dirByte dir = wireDirection dir := by
  cases dir <;> rfl

/-! ### What the ports name (30_encoding.md R86, R87) -/

/-- The kind tag alone selects the operands read (43_dispatcher.md R180). -/
theorem decode_command_of_kind {d : CommandDescriptor} {k : BitVec 4} (hk : d.kind = k) :
    decode (.command d) = decodeCommand { d with kind := k } := by
  rw [← hk]; rfl

theorem toNat_setWidth_low (a : BitVec 32) : (a.setWidth 16).toNat = uint (slice a 0 16) := by
  rw [slice_low, uint]

/-! ### The hand-over of a command's frame (43_dispatcher.md R183, R186) -/

section
variable {i : Instr} {frame : FrameWord} (hi : isCommand i = true) (hframe : encodeFrame i = frame) (s : State)
include hi hframe

theorem exec_command_inRange (hrange : operandsOutOfBounds i = false) :
    exec i s = .next { s with tx := frameOfPort frame, enc := sentOutputs frame false } := by
  rw [exec_command hi, hframe, hrange, dispatch_frameOfPort]
  simp

/-- Out of range the frame in `TX` is the wrapped one under both policies; only the send differs. -/
theorem exec_command_outOfRange (hrange : operandsOutOfBounds i = true) :
    (s.params.rangePolicy = .wrapSend →
      exec i s = .next { s with tx := frameOfPort frame, enc := sentOutputs frame true }) ∧
    (s.params.rangePolicy = .reject →
      exec i s = .next { s with tx := frameOfPort frame, enc := withheldOutputs }) := by
  rw [exec_command hi, hframe, hrange, dispatch_frameOfPort]
  constructor <;> intro hpolicy <;> simp [hpolicy]

end

/-- `TX` and `err_range` after a command are functions of the command alone. -/
theorem exec_command_tx_errRange {i : Instr} {s t : State} (hi : isCommand i = true) (ht : exec i s = .next t) :
    t.tx = frameOfPort (encodeFrame i) ∧ t.enc.errRange = operandsOutOfBounds i := by
  obtain rfl := Host.Outcome.next.inj ((exec_command hi s).symm.trans ht)
  rw [dispatch_frameOfPort]
  refine ⟨rfl, ?_⟩
  dsimp only
  split
  · next hwithheld => exact hwithheld.1.symm
  · rfl

/-! ### The commands without a scaled field: nothing is ever out of range -/

/-- Settles O1: the offset goes out as it is. -/
theorem encoderOffsetSendsRawOffset : Obligations.EncoderOffsetSendsRawOffset := by
  refine ⟨fun d hk => ?ports, fun offset s => ?exec⟩
  case ports => rw [decode_command_of_kind hk, toNat_setWidth_low]; rfl
  case exec => exact exec_command_inRange rfl (by simp [encodeFrame_encoderOffset, portByte_trunc]) s rfl

/-- Settles O2: the current goes out as it is, truncation being its two's complement. -/
theorem torqueSetpointSendsRawCurrent : Obligations.TorqueSetpointSendsRawCurrent := by
  refine ⟨fun d hk => ?ports, fun current s => ?exec⟩
  case ports => rw [decode_command_of_kind hk, ← slice_low]; rfl
  case exec => exact exec_command_inRange rfl (by simp [encodeFrame_torqueSetpoint, portByte_trunc]) s rfl

/-- Settles O8: neither the kinds nor the frames depend on an operand port. -/
theorem queriesSendTheOpcodeAlone : Obligations.QueriesSendTheOpcodeAlone :=
  ⟨fun _ hk => decode_command_of_kind hk, fun _ hk => decode_command_of_kind hk, fun s =>
    ⟨exec_command_inRange rfl encodeFrame_queryMotorStatus s rfl,
      exec_command_inRange rfl encodeFrame_queryMultiTurnAngle s rfl⟩⟩

/-! ### The commands with scaled fields: the bounds are those of 43_dispatcher.md R185 -/

/-- Settles O3, in and out of the bounds of `rpm`. -/
theorem speedSetpointSendsScaledSpeed : Obligations.SpeedSetpointSendsScaledSpeed := by
  refine ⟨fun d hk => decode_command_of_kind hk, fun rpm s => ?_⟩
  intro c frame
  have hframe : encodeFrame (.speedSetpoint rpm) = frame := by
    simp [encodeFrame_speedSetpoint, portByte_trunc, cdpsPerRpm, frame, c]
  exact ⟨fun hin => exec_command_inRange rfl hframe s (decide_eq_false (by omega)),
    fun hout => exec_command_outOfRange rfl hframe s (decide_eq_true hout)⟩

/-- Settles O4, in and out of the bounds of `degrees`. -/
theorem positionCtrl1SendsScaledPosition : Obligations.PositionCtrl1SendsScaledPosition := by
  refine ⟨fun d hk => decode_command_of_kind hk, fun degrees s => ?_⟩
  intro c frame
  have hframe : encodeFrame (.positionCtrl1 degrees) = frame := by
    simp [encodeFrame_positionCtrl1, portByte_trunc, cdegPerDeg, frame, c]
  exact ⟨fun hin => exec_command_inRange rfl hframe s (decide_eq_false (by omega)),
    fun hout => exec_command_outOfRange rfl hframe s (decide_eq_true hout)⟩

/-- Settles O5: each field truncates on its own, and either bound raises the flag. -/
theorem positionCtrl2SendsLimitAndPosition : Obligations.PositionCtrl2SendsLimitAndPosition := by
  refine ⟨fun d hk => decode_command_of_kind hk, fun limit degrees s => ?_⟩
  intro v c frame
  have hframe : encodeFrame (.positionCtrl2 limit degrees) = frame := by
    simp [encodeFrame_positionCtrl2, portByte_trunc, cdpsPerRpm, cdegPerDeg, frame, v, c]
  exact ⟨fun hin => exec_command_inRange rfl hframe s (decide_eq_false (by omega)),
    fun hout => exec_command_outOfRange rfl hframe s (decide_eq_true hout)⟩

/-- Settles O6: the direction is a byte of its own, outside the range condition. -/
theorem positionCtrl3SendsDirectionAndPosition : Obligations.PositionCtrl3SendsDirectionAndPosition := by
  refine ⟨fun d hk => ?ports, fun degrees dir s => ?exec⟩
  case ports => rw [decode_command_of_kind hk, toNat_setWidth_low]; rfl
  case exec =>
    intro c frame
    have hframe : encodeFrame (.positionCtrl3 degrees dir) = frame := by
      simp [encodeFrame_positionCtrl3, portByte_trunc, dirByte_eq_wireDirection, cdegPerDeg, frame, c]
    exact ⟨fun hin => exec_command_inRange rfl hframe s (decide_eq_false (by omega)),
      fun hout => exec_command_outOfRange rfl hframe s (decide_eq_true hout)⟩

/-- Settles O7: direction, limit and position each at its own bytes, either bound raises the flag. -/
theorem positionCtrl4SendsDirectionLimitAndPosition : Obligations.PositionCtrl4SendsDirectionLimitAndPosition := by
  refine ⟨fun d hk => ?ports, fun degrees limit dir s => ?exec⟩
  case ports => rw [decode_command_of_kind hk, toNat_setWidth_low]; rfl
  case exec =>
    intro v c frame
    have hframe : encodeFrame (.positionCtrl4 degrees limit dir) = frame := by
      simp [encodeFrame_positionCtrl4, portByte_trunc, dirByte_eq_wireDirection, cdpsPerRpm, cdegPerDeg, frame, v, c]
    exact ⟨fun hin => exec_command_inRange rfl hframe s (decide_eq_false (by omega)),
      fun hout => exec_command_outOfRange rfl hframe s (decide_eq_true hout)⟩

end Sys2Proof.Machine
end

section
/-! PROOFS. The direction byte (spec/42_encoder.md R161): two frames that part at byte 1 agree at every other
address. -/

namespace Sys2Proof.Machine

/-- Byte 1 of a frame is seen at address 1 alone. -/
theorem byteAt_frameOfPort_frame8_off_one (b0 b1 b1' b2 b3 b4 b5 b6 b7 : Byte) {a : Nat} (ha : a ≠ 1) :
    byteAt (frameOfPort (frame8 b0 b1 b2 b3 b4 b5 b6 b7)) a =
      byteAt (frameOfPort (frame8 b0 b1' b2 b3 b4 b5 b6 b7)) a := by
  have hoff : ¬(1 ≤ a ∧ a < 1 + 1) := by omega
  rw [← setBytes_one_at_1 b0 b1' b2 b3 b4 b5 b6 b7 b1, byteAt_setBytes_uint (frameOfPort_wf _) _ (by decide),
    if_neg hoff]

theorem lane_one_frame8 (b0 b1 b2 b3 b4 b5 b6 b7 : Byte) : lane (frame8 b0 b1 b2 b3 b4 b5 b6 b7) 1 = b1 := by
  obtain ⟨-, hone, -⟩ := portByte_frame8 b0 b1 b2 b3 b4 b5 b6 b7
  exact hone

theorem byteAt_one_frameOfPort_frame8 (b0 b1 b2 b3 b4 b5 b6 b7 : Byte) :
    byteAt (frameOfPort (frame8 b0 b1 b2 b3 b4 b5 b6 b7)) 1 = b1 :=
  (byteAt_frameOfPort _ (by decide)).trans (lane_one_frame8 b0 b1 b2 b3 b4 b5 b6 b7)

/-- Commands with the same verdict whose frames agree off byte 1 leave `TX` alike off byte 1, and the same flag. -/
theorem exec_command_agree_at {i j : Instr} {s t u : State} {a : Nat} (hi : isCommand i = true)
    (hj : isCommand j = true)
    (hbytes : byteAt (frameOfPort (encodeFrame i)) a = byteAt (frameOfPort (encodeFrame j)) a)
    (hrange : operandsOutOfBounds i = operandsOutOfBounds j) (ht : exec i s = .next t) (hu : exec j s = .next u) :
    byteAt t.tx a = byteAt u.tx a ∧ t.enc.errRange = u.enc.errRange := by
  obtain ⟨htx, hterr⟩ := exec_command_tx_errRange hi ht
  obtain ⟨hux, huerr⟩ := exec_command_tx_errRange hj hu
  rw [htx, hux, hterr, huerr]
  exact ⟨hbytes, hrange⟩

/-- Settles O18: the direction is an argument of byte 1 of the frame, and of nothing else. -/
theorem directionOccupiesByteOneAlone : Obligations.DirectionOccupiesByteOneAlone := by
  refine ⟨fun degrees limit dir => ⟨?byteOne3, ?byteOne4⟩,
    fun degrees limit dir dir' s t u a ha => ⟨exec_command_agree_at rfl rfl ?others3 rfl,
      exec_command_agree_at rfl rfl ?others4 rfl⟩,
    fun degrees limit s t ht => ?noDirection⟩
  case byteOne3 => rw [encodeFrame_positionCtrl3, lane_one_frame8, dirByte_eq_wireDirection]
  case byteOne4 => rw [encodeFrame_positionCtrl4, lane_one_frame8, dirByte_eq_wireDirection]
  case others3 =>
    rw [encodeFrame_positionCtrl3, encodeFrame_positionCtrl3]
    exact byteAt_frameOfPort_frame8_off_one _ _ _ _ _ _ _ _ _ ha
  case others4 =>
    rw [encodeFrame_positionCtrl4, encodeFrame_positionCtrl4]
    exact byteAt_frameOfPort_frame8_off_one _ _ _ _ _ _ _ _ _ ha
  case noDirection =>
    rcases ht with ht | ht
    · obtain ⟨htx, -⟩ := exec_command_tx_errRange rfl ht
      rw [htx, encodeFrame_positionCtrl1, byteAt_one_frameOfPort_frame8]
    · obtain ⟨htx, -⟩ := exec_command_tx_errRange rfl ht
      rw [htx, encodeFrame_positionCtrl2, byteAt_one_frameOfPort_frame8]

end Sys2Proof.Machine
end

section
/-! PROOFS. The worked examples of the spec (spec/42_encoder.md R151, R153, R156, R157; spec/44_decoder.md R199,
R205) as instances of the round trip on frames. -/

namespace Sys2Proof.Machine

/-- Settles O38: each command example is the frame of an instruction in range, each response carries its row's
opcode. -/
theorem exampleFramesDecodeRight : Obligations.ExampleFramesDecodeRight := by
  obtain ⟨hcommand, hstatus, hangle⟩ := decodeInvertsEncodeOnFrames
  exact ⟨hcommand (.encoderOffset 0x1234) rfl rfl rfl, hcommand (.speedSetpoint 30) rfl rfl rfl,
    hcommand (.positionCtrl4 90 30 .clockwise) rfl rfl rfl, hcommand (.positionCtrl3 655 .counterclockwise) rfl rfl rfl,
    hstatus _ rfl, hangle _ rfl⟩

end Sys2Proof.Machine
end

section
/-! PROOFS. The dispatcher (spec/43_dispatcher.md): the range condition in operand terms against the widths of the
fields (R185), what `RANGE_POLICY` makes of it (R186), the sends of a run (R188), and the step as the spec's two
functions (R190). -/

namespace Sys2Proof.Machine

/-! ### One sampling instant (R190) -/

/-- Settles O20: the step has a closed form, and the two flag conditions hold of every sampling instant. -/
theorem stepMatchesSpecFunctions : Obligations.StepMatchesSpecFunctions := by
  intro s i rest hs
  have hflags : ((encStep s.params i).errKind && (encStep s.params i).errRange) = false := by
    cases hkind : (encStep s.params i).errKind with
    | false => rfl
    | true => exact ((encStep_encoderInv s.params i).illegal_kind_alone hkind).2
  exact ⟨instantOf s.params i rest, step_of_cons hs, rfl, rfl, rfl, hflags,
    (decStep_decoderInv s.params i).decoder_answers, rfl, rfl, rfl⟩

/-! ### The sends of a run (R183, R188) -/

/-- The `send` event that encoder outputs show (43_dispatcher.md R183). -/
def EncoderOutputs.sendEvent (out : EncoderOutputs) : Option (BitVec 16 × FrameWord) :=
  if out.txValid then some (out.txId, out.txData) else none

/-- The sends of a run are read off its outputs. -/
theorem sends_eq_filterMap_outputs (run : List State) :
    sends run = (run.map State.outputs).filterMap fun out => out.enc.sendEvent := by
  rw [List.filterMap_map]; rfl

theorem sendEvent_sentOutputs (frame : FrameWord) (range : Bool) :
    (sentOutputs frame range).sendEvent = some (0x0141, frame) := rfl

theorem sendEvent_withheldOutputs : withheldOutputs.sendEvent = none := rfl

/-- 43_dispatcher.md R188: an instant sends once for a legal command that is not withheld, and not at all otherwise. -/
theorem sendEvent_encStep (p : Config.Params) (i : Inputs) : (encStep p i).sendEvent = sendOf p i := by
  cases hv : i.cmdValid with
  | false => rw [encStep_idle p hv]; simp [sendOf, hv, EncoderOutputs.sendEvent, EncoderOutputs.idle]
  | true =>
    cases hf : i.commandFrame with
    | none => rw [encStep_illegalKind p hv hf]; simp [sendOf, hf, EncoderOutputs.sendEvent, illegalKindOutputs]
    | some frame =>
      rw [encStep_frame p hv hf, sendOf, hf]
      by_cases hwithheld : i.outOfBounds ∧ p.rangePolicy = .reject
      · rw [if_pos hwithheld, if_neg fun h => h.2 hwithheld, sendEvent_withheldOutputs]
      · rw [if_neg hwithheld, if_pos ⟨hv, hwithheld⟩, sendEvent_sentOutputs, Option.map_some]

/-- Settles O22: the outputs of a run are the spec's functions of its inputs (O21), and its sends are read off them. -/
theorem sendsOncePerLegalCommandInOrder : Obligations.SendsOncePerLegalCommandInOrder := by
  intro n s hn
  rw [sends_eq_filterMap_outputs, runMatchesSpecFunctions n s hn, List.filterMap_map]
  exact List.filterMap_congr fun i _ => sendEvent_encStep s.params i

/-! ### The bounds of the operands are those of the fields (R184, R185) -/

theorem not_fitsS_rpm32 (rpm : Int) : (!fitsS (600 * rpm) 32) = decide (rpm < -3579139 ∨ 3579139 < rpm) := by
  rw [Int.mul_comm, ← rpmToCdps_eq_mul .trunc]
  exact not_fieldFits_rpm32 .trunc rpm

theorem not_fitsS_deg32 (degrees : Int) :
    (!fitsS (100 * degrees) 32) = decide (degrees < -21474836 ∨ 21474836 < degrees) := by
  rw [Int.mul_comm]
  exact not_fieldFits_deg32 degrees

theorem not_fitsU_rpm16 (limit : Nat) : (!fitsU (600 * limit) 16) = decide (109 < limit) := by
  rw [Int.mul_comm, ← rpmToCdps_eq_mul .trunc]
  exact not_fieldFits_rpm16 .trunc limit

theorem not_fitsU_deg16 (degrees : Nat) : (!fitsU (100 * degrees) 16) = decide (655 < degrees) := by
  rw [Int.mul_comm]
  exact not_fieldFits_deg16 degrees

/-- Settles O15: the flag is the operands' verdict, and a command with two fields is in range when both fit. -/
theorem rangeFlagIffOperandsOutOfBounds : Obligations.RangeFlagIffOperandsOutOfBounds := by
  refine ⟨fun i s hi => ⟨_, exec_command hi s, (exec_command_tx_errRange hi (exec_command hi s)).2⟩,
    fun rpm => (not_fitsS_rpm32 rpm).symm, fun degrees => (not_fitsS_deg32 degrees).symm,
    fun limit degrees => ?limitAndPosition, fun degrees _ => (not_fitsU_deg16 degrees).symm,
    fun degrees limit _ => ?limitAndHalf⟩
  case limitAndPosition =>
    rw [Bool.not_and, not_fitsU_rpm16, not_fitsS_deg32]
    exact Bool.decide_or _ _
  case limitAndHalf =>
    rw [Bool.not_and, not_fitsU_rpm16, not_fitsU_deg16]
    exact Bool.decide_or _ _

/-! ### The policy (R186) -/

/-- Settles O16: a command is withheld when it is out of range under `REJECT`, and sent with its flag otherwise. -/
theorem rangePolicyDecidesTheSend : Obligations.RangePolicyDecidesTheSend := by
  refine ⟨rfl, fun i s hi => ⟨_, exec_command hi s, ?_⟩⟩
  rw [dispatch_frameOfPort]
  refine ⟨fun hwrap => ?wrapSend, fun hreject => ?reject⟩
  case wrapSend => simp [hwrap]
  case reject => cases operandsOutOfBounds i <;> simp [hreject]

end Sys2Proof.Machine
end

section
/-! PROOFS. The 56-bit angle (spec/44_decoder.md R203, R204): sign and magnitude in terms of the top bit, and the whole
degrees of every reading. -/

namespace Sys2Proof.Machine

/-! ### The three readings (R203) -/

theorem extendAngle_signMag56 (a : BitVec 56) :
    extendAngle .signMag56 a = if a.msb then -((a.setWidth 55).toNat : Int) else ((a.setWidth 55).toNat : Int) := by
  have hslice : slice a 0 55 = a.setWidth 55 := (BitVec.setWidth_eq_extractLsb' (by decide)).symm
  have hsign : a.getLsbD 55 = a.msb := (BitVec.msb_eq_getLsbD_last a).symm
  simp only [extendAngle, uint, hslice, hsign]

theorem extendAngle_signMag56_eq_sign_mul (a : BitVec 56) :
    extendAngle .signMag56 a = (-1) ^ a.msb.toNat * ((a.toNat % 2 ^ 55 : Nat) : Int) := by
  rw [extendAngle_signMag56, BitVec.toNat_setWidth]
  cases a.msb <;> simp

/-- The magnitude has 55 bits, whatever the sign. -/
theorem extendAngle_signMag56_bounds (a : BitVec 56) :
    -(2 ^ 55 - 1) ≤ extendAngle .signMag56 a ∧ extendAngle .signMag56 a ≤ 2 ^ 55 - 1 := by
  have hmag := (a.setWidth 55).isLt
  rw [extendAngle_signMag56]
  split <;> omega

/-- With the top bit clear every reading is the unsigned value. -/
theorem extendAngle_of_msb_eq_false {a : BitVec 56} (h : a.msb = false) (ext : Config.AngleExt) :
    extendAngle ext a = a.toNat := by
  cases ext with
  | sext56 => exact BitVec.toInt_eq_toNat_of_msb h
  | zext56 => rfl
  | signMag56 =>
    have hlt : a.toNat < 2 ^ 55 := BitVec.toNat_lt_of_msb_false h
    rw [extendAngle_signMag56_eq_sign_mul, h, Nat.mod_eq_of_lt hlt]
    simp

/-- Settles O44: the bounds are those of the vector each reading takes, all 56 bits or the 55 of the magnitude. -/
theorem angleExtensions : Obligations.AngleExtensions := by
  refine ⟨rfl, fun a => ⟨⟨rfl, ?_, ?_⟩, ⟨rfl, ?_, ?_⟩, ⟨extendAngle_signMag56_eq_sign_mul a,
    extendAngle_signMag56_bounds a⟩, fun hmsb => ?agree, fun hzero => ?negativeZero⟩⟩
  · exact a.le_toInt
  · exact Int.le_sub_one_of_lt a.toInt_lt
  · exact extendAngle_zext56_nonneg a
  · have hlt := a.isLt
    simp only [extendAngle, uint]
    omega
  case agree => simp only [extendAngle_of_msb_eq_false hmsb, and_self]
  case negativeZero => rw [hzero]; decide

/-! ### Whole degrees (R204) -/

theorem fitsS_extendAngle (ext : Config.AngleExt) (a : BitVec 56) : fitsS (extendAngle ext a) 64 = true := by
  rw [← accumulator_toInt]
  exact fitsS_sint (accumulator ext a)

/-- A hundredth of a value fits where the value does, under either rounding. -/
theorem fitsS_cdegToDeg (mode : Config.DivMode) {c : Int} (h : fitsS c 64 = true) :
    fitsS (cdegToDeg mode c) 64 = true := by
  rw [fitsS_iff] at h ⊢
  cases mode with
  | trunc => rw [cdegToDeg, idiv_trunc_eq]; split <;> omega
  | floor => rw [cdegToDeg, idiv_floor_eq c (by decide)]; omega

/-- Settles O43: 64 signed bits hold every accumulator, so they hold a hundredth of it. -/
theorem angleInDegreesAlwaysFits : Obligations.AngleInDegreesAlwaysFits := by
  intro ext mode a deg
  have hfits : fitsS deg 64 = true := fitsS_cdegToDeg mode (fitsS_extendAngle ext a)
  exact ⟨rfl, hfits, (sint_trunc_eq_iff (by decide)).mpr hfits⟩

end Sys2Proof.Machine
end

section
/-! PROOFS. The two decode operations (spec/44_decoder.md R196, R197, R199, R205): the shape that names each, what it
makes of eight bytes in the terms of the scaling units, and what of any other length. -/

namespace Sys2Proof.Machine

/-! ### The shape (R195) -/

theorem decode_received_status {r : ReceivedFrame} (h : r.shape = 0) :
    decode (.received r) = .ok (.motorStatus r.len.toNat r.data) :=
  congrArg Except.ok (if_pos h)

theorem decode_received_angle {r : ReceivedFrame} (h : r.shape = 1) :
    decode (.received r) = .ok (.multiTurnAngle r.len.toNat r.data) :=
  congrArg Except.ok (if_neg (by rw [h]; decide))

/-! ### Eight bytes (R199, R205) -/

theorem exec_motorStatus_eight (data : FrameWord) (s : State) :
    exec (.motorStatus 8 data) s = .next { s with
      rx := frameOfPort data
      dec := { DecoderOutputs.idle with
        stValid := true
        stTemp := data.extractLsb' 8 8
        stTorque := data.extractLsb' 16 16
        stSpeed := trunc 16 (wireToRpm s.params.divMode (sint (data.extractLsb' 32 16)))
        stEnc := data.extractLsb' 48 16
        rxOpcode := data.extractLsb' 0 8 } } := by
  rw [trunc_wireToRpm_sint]
  exact decodeOp_eight data (motorStatusRecord_frameOfPort s.params data)

theorem exec_multiTurnAngle_eight (data : FrameWord) (s : State) :
    exec (.multiTurnAngle 8 data) s = .next { s with
      rx := frameOfPort data
      dec := { DecoderOutputs.idle with
        angValid := true
        angDeg := trunc 64 (cdegToDeg s.params.divMode (extendAngle s.params.angleExt (data.extractLsb' 8 56)))
        rxOpcode := data.extractLsb' 0 8 } } := by
  rw [trunc_cdegToDeg_extendAngle]
  exact decodeOp_eight data (multiTurnAngleRecord_frameOfPort s.params data)

/-! ### Any other length (R196) -/

theorem exec_motorStatus_malformed {len : Nat} (h : len ≠ 8) (data : FrameWord) (s : State) :
    exec (.motorStatus len data) s = .next { s with dec := malformedOutputs } :=
  decodeOp_malformed h data motorStatusRecord s

theorem exec_multiTurnAngle_malformed {len : Nat} (h : len ≠ 8) (data : FrameWord) (s : State) :
    exec (.multiTurnAngle len data) s = .next { s with dec := malformedOutputs } :=
  decodeOp_malformed h data multiTurnAngleRecord s

/-- Settles O24: a sampling instant answers `dec_step`, and an operation on such a length reads no byte. -/
theorem malformedFrameRaisesItsFlagAlone : Obligations.MalformedFrameRaisesItsFlagAlone := by
  refine ⟨fun s i rest hs hvalid hlen => ⟨_, step_of_cons hs, decStep_malformed s.params hvalid hlen⟩,
    fun len data other s hlen => ?_⟩
  rw [exec_motorStatus_malformed hlen, exec_multiTurnAngle_malformed hlen]

/-! ### The two operations -/

/-- Settles O9: the speed scaling is the stated division. -/
theorem motorStatusDecodesTelemetry : Obligations.MotorStatusDecodesTelemetry :=
  ⟨fun _ => decode_received_status, exec_motorStatus_eight,
    fun _ data s hlen => exec_motorStatus_malformed hlen data s⟩

/-- Settles O10: the accumulator is the stated one under each extension. -/
theorem multiTurnAngleDecodesDegrees : Obligations.MultiTurnAngleDecodesDegrees := by
  refine ⟨fun _ => decode_received_angle, fun data s => ?_,
    fun _ data s hlen => exec_multiTurnAngle_malformed hlen data s⟩
  have hexec := exec_multiTurnAngle_eight data s
  cases hext : s.params.angleExt with
  | sext56 => rw [hext] at hexec; exact hexec
  | zext56 => rw [hext] at hexec; exact hexec
  | signMag56 => rw [hext, extendAngle_signMag56] at hexec; exact hexec

/-! ### Byte 0 (R197) -/

/-- Frames that agree above byte 0 agree on every slice above it. -/
theorem extractLsb'_congr_above_byteZero {f g : FrameWord} (h : f.extractLsb' 8 56 = g.extractLsb' 8 56)
    {lo n : Nat} (hlo : 8 ≤ lo) (hn : lo + n ≤ 64) : f.extractLsb' lo n = g.extractLsb' lo n := by
  have hsub (x : FrameWord) : x.extractLsb' lo n = (x.extractLsb' 8 56).extractLsb' (lo - 8) n := by
    ext k hk
    have hlow : lo - 8 + k < 56 := by omega
    have hbit : 8 + (lo - 8 + k) = lo + k := by omega
    simp [hlow, hbit]
  rw [hsub f, hsub g, h]

/-- Settles O11: the slices of every other output lie above byte 0. -/
theorem byteZeroOnlyReachesRxOpcode : Obligations.ByteZeroOnlyReachesRxOpcode := by
  refine fun data other s t u habove => ⟨fun ht hu => ?status, fun ht hu => ?angle⟩
  case status =>
    obtain rfl := Host.Outcome.next.inj ((exec_motorStatus_eight data s).symm.trans ht)
    obtain rfl := Host.Outcome.next.inj ((exec_motorStatus_eight other s).symm.trans hu)
    have hslice {lo n : Nat} := extractLsb'_congr_above_byteZero habove (lo := lo) (n := n)
    refine ⟨rfl, ?_⟩
    rw [hslice (lo := 8) (n := 8) (by decide) (by decide), hslice (lo := 16) (by decide) (by decide),
      hslice (lo := 32) (by decide) (by decide), hslice (lo := 48) (by decide) (by decide)]
  case angle =>
    obtain rfl := Host.Outcome.next.inj ((exec_multiTurnAngle_eight data s).symm.trans ht)
    obtain rfl := Host.Outcome.next.inj ((exec_multiTurnAngle_eight other s).symm.trans hu)
    exact ⟨rfl, by rw [habove]⟩

end Sys2Proof.Machine
end

section
/-! PROOFS. The error conditions of the encoder path and of the transport (spec/60_exceptions.md R222, R225, R226): a
kind that names no command, and a failure value that reaches one output alone. -/

namespace Sys2Proof.Machine

/-! ### The transport failure (R225, R226) -/

theorem testBit_transportValue (p : Config.Params) (i : Inputs) (k : Nat) :
    (transportValue p i).testBit k = (decide (k < p.tpw) && i.tpErr.testBit k) :=
  Nat.testBit_mod_two_pow i.tpErr p.tpw k

/-- 60_exceptions.md R226: of an instant, `tp_err` reaches the port itself and `err_transport`. -/
theorem instantOf_with_tpErr (p : Config.Params) (i : Inputs) (v : Nat) (rest : List Inputs) :
    instantOf p { i with tpErr := v } rest =
      { instantOf p i rest with
        inp := { i with tpErr := v }
        errTransport := v % 2 ^ p.tpw } := rfl

/-- Settles O25: a step has a closed form, in which `tp_err` reaches `err_transport` alone. -/
theorem transportFailurePassesThrough : Obligations.TransportFailurePassesThrough := by
  refine ⟨fun s i rest hs => ⟨_, step_of_cons hs, testBit_transportValue s.params i⟩, ?otherOutputs, rfl⟩
  case otherOutputs =>
    intro s s' t t' i v rest hs hs' ht ht'
    subst hs'
    rw [eq_instantOf_of_step hs ht, eq_instantOf_of_step rfl ht', instantOf_with_tpErr]
    exact ⟨rfl, rfl, rfl, rfl⟩

/-! ### The illegal kind (R222) -/

/-- A kind above 8 gives no frame, for a frame would come with a command that the ports name. -/
theorem commandFrame_of_illegalKind {i : Inputs} (hk : 8 < i.cmdKind.toNat) : i.commandFrame = none := by
  cases hf : i.commandFrame with
  | none => rfl
  | some f =>
    obtain ⟨c, hdec, -⟩ := exec_of_commandFrame hf
    rcases decodeCommand_cases i.descriptor with ⟨hle, -⟩ | ⟨-, herr⟩
    · exact absurd hk (Nat.not_lt_of_le hle)
    · cases herr.symm.trans hdec

/-- Settles O23: a sampling instant answers `enc_step`, and such a kind gives it no frame to send. -/
theorem illegalKindRaisesItsFlagAlone : Obligations.IllegalKindRaisesItsFlagAlone := fun s _ _ hs hvalid hkind =>
  ⟨_, step_of_cons hs, encStep_illegalKind s.params hvalid (commandFrame_of_illegalKind hkind)⟩

end Sys2Proof.Machine
end

section
/-! PROOFS. Reset, the idle host and the two paths side by side (spec/70_reset_and_hazards.md R251, R252, R254): reset
is one more instant without a transaction, and the two paths write disjoint parts of the state. -/

namespace Sys2Proof.Machine

/-! ### Instants without a transaction (R251, R252) -/

/-- 10_state.md R35, 70_reset_and_hazards.md R251: reset is no state of its own, but the instant of an idle host. -/
theorem reset_eq_instantOf : State.reset = instantOf Config.defaults Inputs.idle [] := rfl

/-- 10_state.md R32: without a transaction the outputs are idle, but for the transport failure passed through. -/
theorem outputsOf_no_transaction (p : Config.Params) {i : Inputs} (hcmd : i.cmdValid = false)
    (hrx : i.rxValid = false) :
    outputsOf p i =
      { enc := EncoderOutputs.idle, dec := DecoderOutputs.idle, errTransport := transportValue p i } := by
  rw [outputsOf, encStep_idle p hcmd, decStep_idle p hrx, transportValue]

theorem transportValue_idle (p : Config.Params) : transportValue p Inputs.idle = 0 := Nat.zero_mod _

/-- Settles O26: a step has a closed form whose outputs are the spec's functions, and reset has it too. -/
theorem idleHostGivesIdleOutputs : Obligations.IdleHostGivesIdleOutputs := by
  refine ⟨fun s i rest hs => ⟨_, step_of_cons hs, instantOf_outputs s.params i rest⟩,
    fun s i rest hs hcmd hrx => ?idleHost, ?reset⟩
  case idleHost =>
    exact ⟨_, step_of_cons hs, rfl, encStep_idle s.params hcmd, decStep_idle s.params hrx⟩
  case reset =>
    rw [reset_eq_instantOf, instantOf_outputs, outputsOf_no_transaction _ rfl rfl]
    rfl

/-- Settles O27: past its end the listing gives the idle inputs, and the closed form of a step on them is idle. -/
theorem emptyListingStepsIdle : Obligations.EmptyListingStepsIdle := by
  intro s hs
  rw [step_eq_instantOf, hs, List.headD_nil, List.tail_nil, instantOf, txSpace_idle rfl, rxSpace_idle rfl,
    encStep_idle _ rfl, decStep_idle _ rfl, transportValue_idle]

/-- Settles O32: reset is an instant of legal parameters and legal ports, and every such instant meets the invariant. -/
theorem resetMeetsInv : Obligations.ResetMeetsInv := by
  have hports : Inputs.idle.legal Config.defaults := Nat.two_pow_pos Config.defaults.tpw
  rw [Obligations.ResetMeetsInv, reset_eq_instantOf]
  exact instantOf_inv (Nat.le_refl 1) hports (List.forall_mem_nil _)

/-! ### The two paths share nothing (R254) -/

/-- 44_decoder.md R195, R196, R207: all a decode operation does, in any state: it fills `RX` with a frame and drives
`dec_step` of that frame, or it drives `MalformedFrame` and leaves `RX`. -/
theorem exec_decode_cases {d : Instr} (hd : isCommand d = false) :
    (∃ i : Inputs, ∀ s, exec d s = .next { s with rx := frameOfPort i.rxData, dec := decStep s.params i }) ∨
    ∀ s, exec d s = .next { s with dec := malformedOutputs } := by
  cases d
  case motorStatus len data =>
    by_cases hlen : len = 8
    · subst hlen
      exact .inl ⟨_, exec_decodeReceived_eight (i := Transaction.toInputs (.received ⟨0, 8, data⟩)) rfl rfl⟩
    · exact .inr (exec_motorStatus_malformed hlen data)
  case multiTurnAngle len data =>
    by_cases hlen : len = 8
    · subst hlen
      exact .inl ⟨_, exec_decodeReceived_eight (i := Transaction.toInputs (.received ⟨1, 8, data⟩)) rfl rfl⟩
    · exact .inr (exec_multiTurnAngle_malformed hlen data)
  all_goals exact absurd hd Bool.noConfusion

/-- Settles O30: a command reads the parameters and writes `TX` and the encoder outputs, a decode operation reads the
parameters and writes `RX` and the decoder outputs. -/
theorem encodeAndDecodeCommute : Obligations.EncodeAndDecodeCommute := by
  intro c d s hc hd
  rcases exec_decode_cases hd with ⟨i, hdec⟩ | hdec <;>
    simp only [exec_command hc, hdec, andThen_next, dispatch_frameOfPort]

end Sys2Proof.Machine
end
